-- ==== Sys2Proof/Word.lean ====
section
/-! DEFINITION. The word of the block: 32-bit registers and digests (00_scope.md R12, R13), 8-bit bytes. -/

namespace Sys2Proof

/-- A 32-bit unsigned value: a register, a digest, a command word, an offset (00_scope.md R12, R13, R20). -/
abbrev Word := BitVec 32

/-- One byte of the element buffer or of the bit array (00_scope.md R12, R23). -/
abbrev Byte := BitVec 8

end Sys2Proof
end

