-- ==== Sys2Proof/Config.lean ====
section
/-! DEFINITION. What one block fixes (the OPEN parameters of 00_scope.md R14 to R16) and the free values of the spec
(20_memory.md R96, 70_reset_and_hazards.md R261), which are constants without a body. -/

namespace Sys2Proof

/-- The OPEN parameters of one block (00_scope.md R14, R15, R16). State holds them and no step changes them
(log entry 5). -/
structure Params where
  /-- `MAX_BITSET_BYTES`, the byte capacity of the bit-array RAM (R14). -/
  maxBitsetBytes : Nat
  /-- `MAX_ELEM_BYTES`, the byte capacity of the element buffer (R15). -/
  maxElemBytes : Nat
  /-- `BASE`, the address of the block in the host's address space (R16). -/
  base : Nat
  deriving DecidableEq, Repr

/-- The ranges 00_scope.md gives the parameters: `1 <= MAX_BITSET_BYTES <= 2^31` (R14),
`1 <= MAX_ELEM_BYTES <= 2^28` (R15). -/
abbrev Params.Legal (p : Params) : Prop :=
  (1 ≤ p.maxBitsetBytes ∧ p.maxBitsetBytes ≤ 2 ^ 31) ∧ (1 ≤ p.maxElemBytes ∧ p.maxElemBytes ≤ 2 ^ 28)

/-- The parameters of the spec's test vectors, 1024 and 64 (R14, R15), at base 0. DESIGN CHOICE, log entry 5:
`State.reset` needs some value; no statement rests on it. -/
def Params.testVectors : Params := { maxBitsetBytes := 1024, maxElemBytes := 64, base := 0 }

/-- The host address of an offset: every address of the spec is an offset from `BASE` (R16). -/
def Params.hostAddress (p : Params) (off : Word) : Nat := p.base + off.toNat

/-- The offset a host address names, if it lies within the 32-bit range of offsets above `BASE` (R16, R80). -/
def Params.offsetOf (p : Params) (address : Nat) : Option Word :=
  if p.base ≤ address ∧ address < p.base + 2 ^ 32 then some (BitVec.ofNat 32 (address - p.base)) else none

/-- FREE VALUE (log entry 6): the byte at index `i` of the element buffer that nothing has written since reset number
`epoch` (70_reset_and_hazards.md R261; 93_implementation_defined.md U7). -/
opaque Config.elemByte (epoch i : Nat) : Byte

/-- FREE VALUE (log entry 7): the byte at index `j` of the bit array that neither an INIT nor a write has reached since
reset number `epoch` (R261; 93_implementation_defined.md U8). -/
opaque Config.bitsByte (epoch j : Nat) : Byte

/-- FREE VALUE (log entry 8): the byte that read number `draw` of the bit-array window, made while the engine is busy,
returns for index `j` (20_memory.md R96; 93_implementation_defined.md U6). -/
opaque Config.busyByte (draw j : Nat) : Byte

end Sys2Proof
end

