-- ==== Sys2Proof/Syntax.lean ====
section
/-! DEFINITION. The commands of the block: one constructor per row of the opcode map (30_encoding.md R122). -/

namespace Sys2Proof

/-- The six commands. None has an operand field: every operand is a named register or array (30_encoding.md R120,
R121). A word that decodes to no command is ILLEGAL (R124) and is no `Instr`. -/
inductive Instr where
  /-- OPC 0x01, `initialize` (41_filter.md R180). -/
  | init
  /-- OPC 0x02, "destroyed, releasing the bit array" (R185). -/
  | deinit
  /-- OPC 0x03, `hash32(data, seed)` (40_hash_engine.md R150). -/
  | hash
  /-- OPC 0x04, `derive_hashes`, base digests only (41_filter.md R190). -/
  | derive
  /-- OPC 0x05, `insert` (R195). -/
  | insert
  /-- OPC 0x06, `contains` (R200). -/
  | contains
  deriving DecidableEq, Repr

end Sys2Proof
end

