-- ==== Sys2Proof/Decode.lean ====
section
/-! DEFINITION. The command decoder, total on every word and on every byte string, and the encoder
(30_encoding.md R120 to R125). -/

namespace Sys2Proof

/-- Why a command word, or a string of bytes, is no command: the names the decoder rejects by (30_encoding.md R123,
R124, R125). -/
inductive DecodeError where
  /-- Bits 31:8 (RSV) are not all 0 (R123, R124). -/
  | reservedBits
  /-- OPC is 0x00 or 0x07 to 0xFF (R123, R124). -/
  | reservedOpcode
  /-- Not exactly one 4-byte word (R125). -/
  | notOneWord
  deriving DecidableEq, Repr

/-- OPC, bits 7:0 of the command word (R120). -/
def opcField (w : Word) : Byte := w.extractLsb' 0 8

/-- RSV, bits 31:8 of the command word (R120). -/
def rsvField (w : Word) : BitVec 24 := w.extractLsb' 8 24

/-- The opcode map of R122, read from OPC to command. -/
def decodeOpc (opc : Byte) : Except DecodeError Instr :=
  if opc = 0x01 then .ok .init
  else if opc = 0x02 then .ok .deinit
  else if opc = 0x03 then .ok .hash
  else if opc = 0x04 then .ok .derive
  else if opc = 0x05 then .ok .insert
  else if opc = 0x06 then .ok .contains
  else .error .reservedOpcode

/-- `decode(w)` of R123, total on every 32-bit word: RSV first, then OPC. An error is the spec's ILLEGAL (R124). -/
def decode (w : Word) : Except DecodeError Instr :=
  if rsvField w ≠ 0 then .error .reservedBits else decodeOpc (opcField w)

/-- A word from its four bytes, least significant first (20_memory.md R81). -/
def wordOfBytes (b0 b1 b2 b3 : Byte) : Word := b3 ++ b2 ++ b1 ++ b0

/-- The decoder on the bytes of a bus write to `CMD`, lowest address first: exactly one word (R125). -/
def decodeBytes : List Byte → Except DecodeError Instr
  | [b0, b1, b2, b3] => decode (wordOfBytes b0 b1 b2 b3)
  | _ => .error .notOneWord

/-- The OPC of a command (R122). -/
def opcOf : Instr → Byte
  | .init => 0x01
  | .deinit => 0x02
  | .hash => 0x03
  | .derive => 0x04
  | .insert => 0x05
  | .contains => 0x06

/-- The command word of a command: `zext_32(OPC)` (R122). -/
def encode (i : Instr) : Word := (opcOf i).zeroExtend 32

/-- The bytes of a command word, lowest address first (20_memory.md R81). -/
def encodeBytes (i : Instr) : List Byte :=
  [(encode i).extractLsb' 0 8, (encode i).extractLsb' 8 8, (encode i).extractLsb' 16 8, (encode i).extractLsb' 24 8]

/-- The command word of a table row: the row's `nbits` bits, every bit above them 0. -/
def tableWord (nbits w : Nat) : Word := BitVec.ofNat 32 (w % 2 ^ nbits)

/-- What this decoder reads from the word that spec/opcode_table.json numbers `w`, given as `nbits` bits: the word's
four bytes, least significant first, go to `decodeBytes`. A row wider than the one 32-bit format is refused (R120,
R125). -/
def decodeTableWord (nbits w : Nat) : Option Instr :=
  if 32 < nbits then none
  else
    let v := tableWord nbits w
    match decodeBytes [v.extractLsb' 0 8, v.extractLsb' 8 8, v.extractLsb' 16 8, v.extractLsb' 24 8] with
    | .ok i => some i
    | .error _ => none

end Sys2Proof
end

