-- ==== Sys2Proof/Machine/Script.lean ====
section
/-! DEFINITION. What the host can do to the block: the registers and their offsets (10_state.md section 2), the bus
accesses (20_memory.md R80) and the host script (30_encoding.md R130, R131). -/

namespace Sys2Proof.Machine

/-- The sixteen registers of the register window (10_state.md R32 to R47). -/
inductive Reg where
  | id | ctrl | status | cmd | cfgSize | cfgK | size | k | seed | elemLen | hashOut | h1 | h2 | result | maxSize | maxElem
  deriving DecidableEq, Repr

/-- The offset of a register (10_state.md, register summary). -/
def Reg.offset : Reg → Nat
  | .id => 0x000
  | .ctrl => 0x004
  | .status => 0x008
  | .cmd => 0x00C
  | .cfgSize => 0x010
  | .cfgK => 0x014
  | .size => 0x018
  | .k => 0x01C
  | .seed => 0x020
  | .elemLen => 0x024
  | .hashOut => 0x028
  | .h1 => 0x02C
  | .h2 => 0x030
  | .result => 0x034
  | .maxSize => 0x038
  | .maxElem => 0x03C

/-- The register at an offset of the register window, none where the offset is reserved (20_memory.md R85). -/
def Reg.atOffset : Nat → Option Reg
  | 0x000 => some .id
  | 0x004 => some .ctrl
  | 0x008 => some .status
  | 0x00C => some .cmd
  | 0x010 => some .cfgSize
  | 0x014 => some .cfgK
  | 0x018 => some .size
  | 0x01C => some .k
  | 0x020 => some .seed
  | 0x024 => some .elemLen
  | 0x028 => some .hashOut
  | 0x02C => some .h1
  | 0x030 => some .h2
  | 0x034 => some .result
  | 0x038 => some .maxSize
  | 0x03C => some .maxElem
  | _ => none

/-- The access width n of 20_memory.md R80: 1, 2 or 4 bytes. -/
inductive Width where
  | byte | half | word
  deriving DecidableEq, Repr

/-- The number of bytes of a width. -/
def Width.bytes : Width → Nat
  | .byte => 1
  | .half => 2
  | .word => 4

/-- A bus access (20_memory.md R80): its kind, its offset from `BASE`, its width n and, for a write, the n-byte write
value, which is the low n bytes of `v` (log entry 9). -/
inductive Access where
  | read (addr : Word) (n : Width)
  | write (addr : Word) (n : Width) (v : Word)
  deriving DecidableEq, Repr

/-- The block's answer to an access (20_memory.md R80; 60_exceptions.md R228). -/
inductive Answer where
  /-- OK, with the data of a read. -/
  | data (v : Word)
  /-- OK, to a write. -/
  | done
  /-- ERROR, to a read or a write; a read's data is then 0 (R228). -/
  | error
  deriving DecidableEq, Repr

/-- The data the host sees in an answer: 0 where there is none (R228). -/
def Answer.value : Answer → Word
  | .data v => v
  | .done => 0
  | .error => 0

/-- One operation of the host's script: a bus access, or the `wait` loop, which repeats its read of `STATUS`
(30_encoding.md R130, R131). -/
inductive HostOp where
  | access (a : Access)
  | wait
  deriving DecidableEq, Repr

/-- `OFF` of a script line: a number, a register name, `ELEM+i` or `BITS+j` (R130). -/
inductive Off where
  | num (w : Word)
  | reg (r : Reg)
  | elem (i : Nat)
  | bits (j : Nat)
  deriving DecidableEq, Repr

/-- First offset of the element window (20_memory.md R83). -/
abbrev elemWindow : Nat := 0x10000000

/-- First offset of the bit-array window (20_memory.md R83). -/
abbrev bitsWindow : Nat := 0x80000000

/-- The offset a script's `OFF` stands for (30_encoding.md R130). -/
def Off.value : Off → Word
  | .num w => w
  | .reg r => BitVec.ofNat 32 r.offset
  | .elem i => BitVec.ofNat 32 (elemWindow + i)
  | .bits j => BitVec.ofNat 32 (bitsWindow + j)

/-- A line of a host script: the six primitive lines of R130 (a read may carry `-> EXPECT`, an assertion without bus
effect) and the pseudo-instructions of R131. -/
inductive Line where
  | wr32 (off : Off) (v : BitVec 32)
  | wr16 (off : Off) (v : BitVec 16)
  | wr8 (off : Off) (v : BitVec 8)
  | rd32 (off : Off) (expect : Option (BitVec 32))
  | rd16 (off : Off) (expect : Option (BitVec 16))
  | rd8 (off : Off) (expect : Option (BitVec 8))
  | cmd (i : Instr)
  | wait
  | elem (bytes : List Byte)
  | elemText (text : List Char)
  | clrdone
  | run (i : Instr)
  deriving DecidableEq, Repr

/-- The write of one word to a register. -/
def writeReg32 (r : Reg) (v : Word) : HostOp := .access (.write (Off.reg r).value .word v)

/-- The byte writes of the pseudo-instruction `elem` from element index `i` on: `wr8 ELEM+i, bi` (R131). -/
def elemWrites : Nat → List Byte → List HostOp
  | _, [] => []
  | i, b :: rest => .access (.write (Off.elem i).value .byte (b.zeroExtend 32)) :: elemWrites (i + 1) rest

/-- The expansion of `elem`: the byte writes, then `wr32 ELEM_LEN, n` (R131). -/
def expandElem (bytes : List Byte) : List HostOp :=
  elemWrites 0 bytes ++ [writeReg32 .elemLen (BitVec.ofNat 32 bytes.length)]

/-- The expansion of `cmd MNEMONIC`: `wr32 CMD, zext_32(OPC of MNEMONIC)` (R131). -/
def expandCmd (i : Instr) : HostOp := writeReg32 .cmd (encode i)

/-- The expansion of a line into host operations (R130, R131). -/
def Line.expand : Line → List HostOp
  | .wr32 off v => [.access (.write off.value .word v)]
  | .wr16 off v => [.access (.write off.value .half (v.zeroExtend 32))]
  | .wr8 off v => [.access (.write off.value .byte (v.zeroExtend 32))]
  | .rd32 off _ => [.access (.read off.value .word)]
  | .rd16 off _ => [.access (.read off.value .half)]
  | .rd8 off _ => [.access (.read off.value .byte)]
  | .cmd i => [expandCmd i]
  | .wait => [.wait]
  | .elem bytes => expandElem bytes
  | .elemText text => expandElem (text.map fun c => BitVec.ofNat 8 c.toNat)
  | .clrdone => [writeReg32 .status 0x00000004]
  | .run i => [expandCmd i, .wait]

/-- The host operations of a script (R130): its lines in order. -/
def expandScript (lines : List Line) : List HostOp := lines.flatMap Line.expand

/-- The value that a read line's `-> EXPECT` states, none where the line states none (R130). -/
def Line.expected : Line → Option Word
  | .rd32 _ expect => expect
  | .rd16 _ expect => expect.map (·.zeroExtend 32)
  | .rd8 _ expect => expect.map (·.zeroExtend 32)
  | .wr32 _ _ => none
  | .wr16 _ _ => none
  | .wr8 _ _ => none
  | .cmd _ => none
  | .wait => none
  | .elem _ => none
  | .elemText _ => none
  | .clrdone => none
  | .run _ => none

/-- Whether an answer meets a line's `-> EXPECT`: the value the read returns is the value stated (R130), which is 0 for
a bus error (20_memory.md R89; 60_exceptions.md R228); a line that states none is met (log entry 21). -/
def Line.expectMet (line : Line) (a : Answer) : Bool :=
  match line.expected with
  | some v => a.value == v
  | none => true

end Sys2Proof.Machine
end

