-- ==== Sys2Proof/WellFormed.lean ====
section
/-! DEFINITION. What makes an instruction, an access, a host operation and a script line well formed
(20_memory.md R80; 30_encoding.md R120, R121, R130). -/

namespace Sys2Proof

/-- Every command is well formed: a command word has no operand field (30_encoding.md R120, R121). -/
def Instr.wellFormed : Instr → Bool
  | .init => true
  | .deinit => true
  | .hash => true
  | .derive => true
  | .insert => true
  | .contains => true

end Sys2Proof

namespace Sys2Proof.Machine

/-- A write access is well formed when its value fits its n bytes (20_memory.md R80). -/
def Access.wellFormed : Access → Bool
  | .read _ _ => true
  | .write _ n v => decide (v.toNat < 2 ^ (8 * n.bytes))

/-- A host operation is well formed when its access is. -/
def HostOp.wellFormed : HostOp → Bool
  | .access a => a.wellFormed
  | .wait => true

/-- `OFF` is well formed when `ELEM+i` and `BITS+j` are 32-bit offsets (30_encoding.md R130; 20_memory.md R80). -/
def Off.wellFormed : Off → Bool
  | .num _ => true
  | .reg _ => true
  | .elem i => decide (elemWindow + i < 2 ^ 32)
  | .bits j => decide (bitsWindow + j < 2 ^ 32)

/-- A script line is well formed when its offset is, and when the bytes of `elem` have 32-bit offsets and a 32-bit
count (30_encoding.md R130, R131). -/
def Line.wellFormed : Line → Bool
  | .wr32 off _ => off.wellFormed
  | .wr16 off _ => off.wellFormed
  | .wr8 off _ => off.wellFormed
  | .rd32 off _ => off.wellFormed
  | .rd16 off _ => off.wellFormed
  | .rd8 off _ => off.wellFormed
  | .cmd i => i.wellFormed
  | .wait => true
  | .elem bytes => decide (elemWindow + bytes.length ≤ 2 ^ 32)
  | .elemText text => decide (elemWindow + text.length ≤ 2 ^ 32) && text.all fun c => decide (c.toNat < 128)
  | .clrdone => true
  | .run i => i.wellFormed

end Sys2Proof.Machine
end

