-- ==== Sys2Proof/Machine/Memory.lean ====
section
/-! DEFINITION. The block's RAM arrays as plain data in one canonical form, and the operations on them
(10_state.md R48, R50; 20_memory.md R102; 70_reset_and_hazards.md R261). -/

namespace Sys2Proof.Machine

/-- A RAM array: the listed bytes, addresses strictly rising, and the length of the prefix that INIT has cleared since
reset (0 for the element buffer, which nothing clears). Log entries 6 and 7. -/
structure Memory where
  cleared : Nat
  cells : List Host.Cell
  deriving DecidableEq, Repr

/-- A RAM array just after reset: nothing listed, nothing cleared (70_reset_and_hazards.md R261). -/
def Memory.unwritten : Memory := { cleared := 0, cells := [] }

/-- The ONE definition of what an unlisted address holds: 0 in the cleared prefix (41_filter.md R180, R181), no value
elsewhere (70_reset_and_hazards.md R261); a reader turns "no value" into a free byte. -/
def Memory.unlisted (m : Memory) (a : Nat) : Option Byte := if a < m.cleared then some 0 else none

/-- The first listed byte at an address. -/
def lookupCell : List Host.Cell → Nat → Option Byte
  | [], _ => none
  | c :: rest, a => if c.1 = a then some c.2 else lookupCell rest a

/-- The listed bytes with the byte at `a` set to `v`, in rising order. -/
def insertCell : List Host.Cell → Nat → Byte → List Host.Cell
  | [], a, v => [(a, v)]
  | c :: rest, a, v =>
    if a < c.1 then (a, v) :: c :: rest
    else if a = c.1 then (a, v) :: rest
    else c :: insertCell rest a v

/-- The listed bytes without address `a`. -/
def eraseCell (cells : List Host.Cell) (a : Nat) : List Host.Cell := cells.filter fun c => c.1 ≠ a

/-- The byte at an address, none where it has no value since reset. -/
def Memory.get? (m : Memory) (a : Nat) : Option Byte :=
  match lookupCell m.cells a with
  | some v => some v
  | none => m.unlisted a

/-- Writes one byte and keeps the canonical form: a byte equal to what the unlisted address holds is not listed. -/
def Memory.write (m : Memory) (a : Nat) (v : Byte) : Memory :=
  { m with cells := if m.unlisted a = some v then eraseCell m.cells a else insertCell m.cells a v }

/-- Clears bytes 0 to n - 1 (`BitsClear(j)` of 20_memory.md R102 for every j < n, 41_filter.md R180). -/
def Memory.clear (m : Memory) (n : Nat) : Memory :=
  { cleared := max m.cleared n, cells := m.cells.filter fun c => n ≤ c.1 }

/-- The canonical form: addresses strictly rising, no entry equal to what its address would hold unlisted. -/
abbrev Memory.wf (m : Memory) : Prop :=
  m.cells.Pairwise (fun c d => c.1 < d.1) ∧ ∀ c ∈ m.cells, m.unlisted c.1 ≠ some c.2

/-- Every listed address is below `n`: the array has `n` bytes. -/
abbrev Memory.within (m : Memory) (n : Nat) : Prop := ∀ c ∈ m.cells, c.1 < n

end Sys2Proof.Machine
end

