-- ==== Sys2Proof/Machine/State.lean ====
section
/-! DEFINITION. The state of the block (10_state.md R59), its reset (70_reset_and_hazards.md R260), and the reasons a
step can stop (there is none: 60_exceptions.md R248). -/

namespace Sys2Proof.Machine

/-- Command error codes, the values `STATUS.ERR` takes; codes 5 to 15 are never produced (60_exceptions.md R220). -/
inductive ErrorCode where
  | ok
  | invalidConfig
  | useBeforeInit
  | illegalCmd
  | elemRange
  deriving DecidableEq, Repr

/-- The engine phase (10_state.md R55): idle, or busy with the command word latched at acceptance. -/
inductive Phase where
  | idle
  | busy (op : Word)
  deriving DecidableEq, Repr

/-- Who takes the next step (60_exceptions.md R247). -/
inductive Mover where
  | host
  | engine
  | reset
  deriving DecidableEq, Repr

/-- No fault stops the block: "a bus error is a response value, not a stuck state; a command error is a completed
command" (60_exceptions.md R248). So no constructor, raised by nobody (log entry 19). -/
inductive Fault where
  deriving DecidableEq, Repr

/-- No command is refused: every command has its meaning. -/
inductive Refusal where
  /-- An instruction that has no meaning yet, by its mnemonic: raised by no arm of `exec` now. Safe. -/
  | notModelled (mnemonic : String)
  deriving DecidableEq, Repr

/-- The state of the block (10_state.md R59), its parameters, and the model's own fields for what surrounds it. -/
structure State where
  /-- The OPEN parameters (00_scope.md R14 to R16); changed by no step (log entry 5). -/
  params : Params
  /-- `CTRL.IRQ_EN` (10_state.md R33). -/
  irqEn : Bool
  /-- The engine phase (R55); `STATUS.BUSY` is 1 exactly when it is busy (log entry 10). -/
  phase : Phase
  /-- `STATUS.INIT` (R34): a filter is configured. -/
  inited : Bool
  /-- `STATUS.DONE` (R34). -/
  done : Bool
  /-- `STATUS.OVR` (R34). -/
  ovr : Bool
  /-- `STATUS.ERR` (R34; 60_exceptions.md R220). -/
  err : ErrorCode
  /-- `CFG_SIZE` (R36). -/
  cfgSize : Word
  /-- `CFG_K` (R37). -/
  cfgK : Word
  /-- `SIZE` (R38). -/
  size : Word
  /-- `K` (R39). -/
  k : Word
  /-- `SEED` (R40). -/
  seed : Word
  /-- `ELEM_LEN` (R41). -/
  elemLen : Word
  /-- `HASH_OUT` (R42). -/
  hashOut : Word
  /-- `H1` (R43). -/
  h1 : Word
  /-- `H2` (R44). -/
  h2 : Word
  /-- `RESULT.MEMBER` (R45). -/
  member : Bool
  /-- The bit array `Bits` (R48). -/
  bits : Memory
  /-- The element buffer `Elem` (R50). -/
  elem : Memory
  /-- MODEL'S OWN: the block's answer to the last host access, none before the first (log entry 4). -/
  answer : Option Answer
  /-- MODEL'S OWN: an input, the host operations still to come (log entry 1). -/
  script : List HostOp
  /-- MODEL'S OWN: an input, who takes the next steps; where it is empty the engine goes before the host
  (log entries 1, 2). -/
  schedule : List Mover
  /-- MODEL'S OWN: how many resets there have been, so that each reset leaves fresh free bytes (log entry 6). -/
  epoch : Nat
  /-- MODEL'S OWN: how many bit-array window reads were made while busy, so that each draws fresh bytes (log entry 8). -/
  draws : Nat
  deriving DecidableEq, Repr

/-- A block with parameters `p` right after reset number `epoch`, with the host's script and the schedule still to
come: every value of 70_reset_and_hazards.md R260. `draws` goes on counting, so no free byte is drawn twice. -/
def State.afterReset (p : Params) (script : List HostOp) (schedule : List Mover) (epoch draws : Nat) :
    State where
  params := p
  irqEn := false
  phase := .idle
  inited := false
  done := false
  ovr := false
  err := .ok
  cfgSize := 0
  cfgK := 5
  size := 0
  k := 0
  seed := 0
  elemLen := 0
  hashOut := 0
  h1 := 0
  h2 := 0
  member := false
  bits := Memory.unwritten
  elem := Memory.unwritten
  answer := none
  script := script
  schedule := schedule
  epoch := epoch
  draws := draws

/-- The block right after reset (R260), with no script and no schedule. The parameters are the test values of
00_scope.md R14, R15 (DESIGN CHOICE, log entry 5). -/
def State.reset : State := State.afterReset Params.testVectors [] [] 0 0

end Sys2Proof.Machine
end

