-- ==== Sys2Proof/Machine/Flags.lean ====
section
/-! DEFINITION. The status flags: `STATUS` as a word, its write-1-to-clear, `CTRL`, `RESULT` and the interrupt output
(10_state.md R33, R34, R45, R52; 60_exceptions.md R220, R236). -/

namespace Sys2Proof.Machine

/-- The code of an error (60_exceptions.md R220). -/
def ErrorCode.code : ErrorCode → BitVec 4
  | .ok => 0
  | .invalidConfig => 1
  | .useBeforeInit => 2
  | .illegalCmd => 3
  | .elemRange => 4

/-- `STATUS.BUSY` = 1 exactly when `phase = BUSY(op)` for some op (10_state.md R55). -/
def Phase.isBusy : Phase → Bool
  | .idle => false
  | .busy _ => true

/-- `STATUS.BUSY` (10_state.md R34). -/
def State.busy (s : State) : Bool := s.phase.isBusy

/-- A flag as a one-bit field. -/
def flagBit (b : Bool) : BitVec 1 := if b then 1 else 0

/-- `STATUS` as the host reads it: BUSY bit 0, INIT bit 1, DONE bit 2, OVR bit 3, ERR bits 11:8, all others 0
(10_state.md R34). -/
def State.statusWord (s : State) : Word :=
  (0 : BitVec 20) ++ s.err.code ++ (0 : BitVec 4) ++ flagBit s.ovr ++ flagBit s.done ++ flagBit s.inited ++ flagBit s.busy

/-- `CTRL` as the host reads it: IRQ_EN in bit 0, bits 31:1 zero (10_state.md R33). -/
def State.ctrlWord (s : State) : Word := (0 : BitVec 31) ++ flagBit s.irqEn

/-- `RESULT` as the host reads it: MEMBER in bit 0, bits 31:1 zero (10_state.md R45). -/
def State.resultWord (s : State) : Word := (0 : BitVec 31) ++ flagBit s.member

/-- `irq = CTRL.IRQ_EN & STATUS.DONE` at all times (60_exceptions.md R236). -/
def State.irq (s : State) : Bool := s.irqEn && s.done

/-- A host write of `w` to `STATUS`: `w[2]` clears DONE, `w[3]` clears OVR, no other field changes (10_state.md R34). -/
def State.writeStatus (s : State) (w : Word) : State :=
  { s with done := s.done && !w.getLsbD 2, ovr := s.ovr && !w.getLsbD 3 }

/-- A host write of `w` to `CTRL`: bit 0 to IRQ_EN, the rest ignored (10_state.md R33). -/
def State.writeCtrl (s : State) (w : Word) : State := { s with irqEn := w.getLsbD 0 }

end Sys2Proof.Machine
end

