-- ==== Sys2Proof/Machine/Ops.lean ====
section
/-! DEFINITION. The shared operations: reading the RAM arrays and the registers, accepting and completing a command,
dropping a write, answering an access, reset (10_state.md; 20_memory.md; 60_exceptions.md section 2;
70_reset_and_hazards.md section 1). -/

namespace Sys2Proof.Machine

/-- `Elem[i]` (10_state.md R50; `ElemRead(i)` of 20_memory.md R102); a byte not written since reset is a free byte
(70_reset_and_hazards.md R261). -/
def State.elemByte (s : State) (i : Nat) : Byte := (s.elem.get? i).getD (Config.elemByte s.epoch i)

/-- The byte `j` of a bit array held in `m`, a free byte where it has no value since reset number `epoch`
(10_state.md R48; 70_reset_and_hazards.md R261). -/
def arrayByte (epoch : Nat) (m : Memory) (j : Nat) : Byte := (m.get? j).getD (Config.bitsByte epoch j)

/-- `Bits[j]` (10_state.md R48). -/
def State.bitsByte (s : State) (j : Nat) : Byte := arrayByte s.epoch s.bits j

/-- A bit-array byte of the active filter: `STATUS.INIT = 1` and `j < SIZE` (20_memory.md R87). -/
def State.inFilter (s : State) (j : Nat) : Bool := s.inited && decide (j < s.size.toNat)

/-- The byte `j` of the bit-array window as the host reads it while the engine is idle: `Bits[j]` in the active
filter, 0 elsewhere (20_memory.md R87, R88). -/
def State.windowByte (s : State) (j : Nat) : Byte := if s.inFilter j then s.bitsByte j else 0

/-- The value of a register as the host reads it; reserved bits and `CMD` read 0 (10_state.md R32 to R47, R53). -/
def State.readReg (s : State) : Reg → Word
  | .id => 0x424C4631
  | .ctrl => s.ctrlWord
  | .status => s.statusWord
  | .cmd => 0
  | .cfgSize => s.cfgSize
  | .cfgK => s.cfgK
  | .size => s.size
  | .k => s.k
  | .seed => s.seed
  | .elemLen => s.elemLen
  | .hashOut => s.hashOut
  | .h1 => s.h1
  | .h2 => s.h2
  | .result => s.resultWord
  | .maxSize => BitVec.ofNat 32 s.params.maxBitsetBytes
  | .maxElem => BitVec.ofNat 32 s.params.maxElemBytes

/-- Acceptance of command word `w`: `phase <- BUSY(w)` (so BUSY is 1) and `STATUS.DONE <- 0`, nothing else
(60_exceptions.md R230). -/
def State.accept (s : State) (w : Word) : State := { s with phase := .busy w, done := false }

/-- `complete(e)`, THE one way a command ends, with success or with an error: `STATUS.ERR <- e`, `STATUS.DONE <- 1`,
`phase <- IDLE` (so BUSY is 0) (60_exceptions.md R232). The block has no other exception entry (R227). -/
def State.complete (s : State) (e : ErrorCode) : State := { s with err := e, done := true, phase := .idle }

/-- A write dropped because the engine is busy: `STATUS.OVR <- 1`, no location changes (20_memory.md R95). -/
def State.dropWrite (s : State) : State := { s with ovr := true }

/-- The block's answer to an access, put where the host sees it (20_memory.md R80). -/
def State.answered (s : State) (a : Answer) : State := { s with answer := some a }

/-- One more bit-array read while busy: the next one draws other bytes (20_memory.md R96). -/
def State.drew (s : State) : State := { s with draws := s.draws + 1 }

/-- A host write to a register that the busy engine lets through or that is idle-only (20_memory.md R95): `set` while
idle, dropped while busy. -/
def State.unlessBusy (s : State) (set : State) : State := if s.busy then s.dropWrite else set

/-- A host write of word `w` to a register (10_state.md R33 to R41, R53; 20_memory.md R84, R95): `CTRL` and `STATUS`
at any time, `CMD` and the configuration while idle, read-only registers never. -/
def State.writeReg (s : State) (r : Reg) (w : Word) : State :=
  match r with
  | .ctrl => s.writeCtrl w
  | .status => s.writeStatus w
  | .cmd => s.unlessBusy (s.accept w)
  | .cfgSize => s.unlessBusy { s with cfgSize := w }
  | .cfgK => s.unlessBusy { s with cfgK := w }
  | .seed => s.unlessBusy { s with seed := w }
  | .elemLen => s.unlessBusy { s with elemLen := w }
  | .id => s
  | .size => s
  | .k => s
  | .hashOut => s
  | .h1 => s
  | .h2 => s
  | .result => s
  | .maxSize => s
  | .maxElem => s

/-- The reset step: every state of 70_reset_and_hazards.md R260 to its reset value at once, a command in flight
abandoned (R262); the parameters and the inputs stay, and unwritten RAM bytes are fresh free bytes (R261). -/
def State.resetStep (s : State) : State := State.afterReset s.params s.script s.schedule (s.epoch + 1) s.draws

end Sys2Proof.Machine
end

