-- ==== Sys2Proof/Machine/Bus.lean ====
section
/-! DEFINITION. The host bus: the address map, reads and writes of the three windows, and the host's step
(20_memory.md R80 to R96; 30_encoding.md R130, R131). -/

namespace Sys2Proof.Machine

/-- What an access reaches (20_memory.md R83). -/
inductive Target where
  /-- A register of the register window. -/
  | reg (r : Reg)
  /-- The element window, from `Elem[i]` on. -/
  | elem (i : Nat)
  /-- The bit-array window, from `Bits[j]` on. -/
  | bits (j : Nat)
  /-- A bus error (R89). -/
  | busError
  deriving DecidableEq, Repr

/-- The size of the register window (20_memory.md R83). -/
abbrev regWindowBytes : Nat := 0x1000

/-- An access of the register window: 4 bytes wide, aligned, at an implemented register (20_memory.md R84, R85). -/
def regTarget (a : Nat) (n : Width) : Target :=
  match n, Reg.atOffset a with
  | .word, some r => .reg r
  | _, _ => .busError

/-- The address decoder (20_memory.md R83 to R90): alignment first, then the window that holds all n bytes. -/
def decodeAccess (p : Params) (addr : Word) (n : Width) : Target :=
  let a := addr.toNat
  if a % n.bytes ≠ 0 then .busError
  else if a < regWindowBytes then regTarget a n
  else if elemWindow ≤ a ∧ a + n.bytes ≤ elemWindow + p.maxElemBytes then .elem (a - elemWindow)
  else if bitsWindow ≤ a ∧ a + n.bytes ≤ bitsWindow + p.maxBitsetBytes then .bits (a - bitsWindow)
  else .busError

/-- The value of bytes at rising addresses: `v = Σ byte(a+i) << (8*i)` (20_memory.md R81). -/
def leValue : List Byte → Word
  | [] => 0
  | b :: rest => b.zeroExtend 32 ||| (leValue rest <<< 8)

/-- Byte i of a write value: `v[8i+7 : 8i]` (20_memory.md R81). -/
def leByte (v : Word) (i : Nat) : Byte := v.extractLsb' (8 * i) 8

/-- The n-byte value that a window gives byte by byte from index `i` on. -/
def gather (byte : Nat → Byte) (i n : Nat) : Word := leValue ((List.range n).map fun b => byte (i + b))

/-- Writes the low n bytes of `v` into the element buffer from `Elem[i]` on (20_memory.md R86). -/
def writeElemBytes (m : Memory) (i : Nat) (v : Word) : Nat → Memory
  | 0 => m
  | b + 1 => (writeElemBytes m i v b).write (i + b) (leByte v b)

/-- Writes the low n bytes of `v` into the bit array from `Bits[j]` on; a byte outside the active filter is
write-ignored (20_memory.md R87, R88). -/
def writeBitsBytes (inFilter : Nat → Bool) (m : Memory) (j : Nat) (v : Word) : Nat → Memory
  | 0 => m
  | b + 1 =>
    let m' := writeBitsBytes inFilter m j v b
    if inFilter (j + b) then m'.write (j + b) (leByte v b) else m'

/-- A bus read (20_memory.md R84, R86 to R89, R93, R96): no side effect on the block. While busy every byte of the
bit-array window is a free byte. -/
def busRead (s : State) (addr : Word) (n : Width) : State :=
  match decodeAccess s.params addr n with
  | .reg r => s.answered (.data (s.readReg r))
  | .elem i => s.answered (.data (gather s.elemByte i n.bytes))
  | .bits j =>
    if s.busy then s.drew.answered (.data (gather (Config.busyByte s.draws) j n.bytes))
    else s.answered (.data (gather s.windowByte j n.bytes))
  | .busError => s.answered .error

/-- A bus write (20_memory.md R84, R86 to R89, R95): decoded first, so a bus error never sets OVR
(60_exceptions.md R239); then registers by their own rule, the RAM windows while idle, dropped while busy. -/
def busWrite (s : State) (addr : Word) (n : Width) (v : Word) : State :=
  match decodeAccess s.params addr n with
  | .reg r => (s.writeReg r v).answered .done
  | .elem i => (s.unlessBusy { s with elem := writeElemBytes s.elem i v n.bytes }).answered .done
  | .bits j => (s.unlessBusy { s with bits := writeBitsBytes s.inFilter s.bits j v n.bytes }).answered .done
  | .busError => s.answered .error

/-- One bus access, answered in one atomic step (20_memory.md R80, R92). -/
def busAccess (s : State) : Access → State
  | .read addr n => busRead s addr n
  | .write addr n v => busWrite s addr n v

/-- The host goes on to its next operation. -/
def State.advanceScript (s : State) : State := { s with script := s.script.tail }

/-- The `wait` loop's read of `STATUS` (30_encoding.md R131). -/
def waitRead (s : State) : State := busRead s (Off.reg .status).value .word

/-- Whether the read of `STATUS` shows BUSY = 1, so that `wait` repeats (30_encoding.md R131). -/
def waitGoesOn (s : State) : Bool :=
  match s.answer with
  | some a => a.value.getLsbD 0
  | none => false

/-- The host's step (60_exceptions.md R247 (a)): one access; `wait` stays the next operation while its read shows
BUSY = 1. -/
def hostStep (s : State) : HostOp → State
  | .access a => busAccess s.advanceScript a
  | .wait => if waitGoesOn (waitRead s) then waitRead s else (waitRead s).advanceScript

end Sys2Proof.Machine
end

