-- ==== Sys2Proof/Machine/Hash.lean ====
section
/-! DEFINITION. The hash engine: MurmurHash3 x86-32 (40_hash_engine.md R140 to R147). Each constant stands
to the left of its product or sum, where the spec writes it to the right: the value is the same, and Lean does not count
up to the constant when it compares two terms. -/

namespace Sys2Proof.Machine

/-- `rotl32(x, r)` for 0 < r < 32 (00_scope.md R21). -/
def rotl32 (x : Word) (r : Nat) : Word := (x <<< r) ||| (x >>> (32 - r))

/-- `mixK(k) = rotl32(k * c1, 15) * c2` (40_hash_engine.md R141, R143). -/
def mixK (k : Word) : Word := 0x1b873593#32 * rotl32 (0xcc9e2d51#32 * k) 15

/-- The state update of one full block (R143). -/
def mixBlock (h blk : Word) : Word := 0xe6546b64#32 + 5#32 * rotl32 (h ^^^ mixK blk) 13

/-- The 32-bit value of a 4-byte block, little-endian (R142). -/
def blockWord (b0 b1 b2 b3 : Byte) : Word :=
  b0.zeroExtend 32 ||| (b1.zeroExtend 32 <<< 8) ||| (b2.zeroExtend 32 <<< 16) ||| (b3.zeroExtend 32 <<< 24)

/-- The partial block `k1` of the tail bytes, each zero-extended and shifted by 8 times its position (R144). -/
def tailWord : List Byte → Word
  | [] => 0
  | b :: rest => b.zeroExtend 32 ||| (tailWord rest <<< 8)

/-- The running state after every full block, in increasing order, and then the tail, which is skipped when there is
none (R142 to R144). -/
def hashBody : List Byte → Word → Word
  | b0 :: b1 :: b2 :: b3 :: rest, h => hashBody rest (mixBlock h (blockWord b0 b1 b2 b3))
  | [], h => h
  | tail, h => h ^^^ mixK (tailWord tail)

/-- The avalanche mix `fmix` (R145). -/
def fmix (h : Word) : Word :=
  let a := 0x85ebca6b#32 * (h ^^^ (h >>> 16))
  let b := 0xc2b2ae35#32 * (a ^^^ (a >>> 13))
  b ^^^ (b >>> 16)

/-- `hash32(data, seed)` (R140, R146): blocks, tail, XOR of the length, avalanche mix. -/
def hash32 (data : List Byte) (seed : Word) : Word :=
  fmix (hashBody data seed ^^^ BitVec.ofNat 32 data.length)

end Sys2Proof.Machine
end

