-- ==== Sys2Proof/Machine/Operands.lean ====
section
/-! DEFINITION. The implicit operands of the commands (30_encoding.md R121): the element and its digests, the derived
hashes, the addressed bits (41_filter.md R170 to R175; 20_memory.md R102). -/

namespace Sys2Proof.Machine

/-- The element of a command: `Elem[0], ..., Elem[ELEM_LEN - 1]` (10_state.md R50; 41_filter.md R175). -/
def State.element (s : State) : List Byte := (List.range s.elemLen.toNat).map s.elemByte

/-- The length check of HASH, DERIVE, INSERT and CONTAINS: `ELEM_LEN > MAX_ELEM_BYTES` is ELEM_RANGE
(60_exceptions.md R224). -/
def State.elemTooLong (s : State) : Bool := decide (s.params.maxElemBytes < s.elemLen.toNat)

/-- The first base digest `hash32(e, 0)` (41_filter.md R170). -/
def digest1 (e : List Byte) : Word := hash32 e 0

/-- The second base digest `hash32(e, h1)`, seeded with the first (41_filter.md R170). -/
def digest2 (e : List Byte) : Word := hash32 e (digest1 e)

/-- `H1 <- h1`, `H2 <- h2`, always together (10_state.md R44; 41_filter.md R175). -/
def State.setDigests (s : State) : State := { s with h1 := digest1 s.element, h2 := digest2 s.element }

/-- `DH(i) = (h1 + i * h2) mod 2^32` (41_filter.md R171). -/
def derivedHash (h1 h2 : Word) (i : Nat) : Word := h1 + BitVec.ofNat 32 i * h2

/-- The position `p = v mod S` of a derived hash in a filter of S bytes (41_filter.md R172). -/
def bitPosition (v : Word) (size : Nat) : Nat := v.toNat % size

/-- The byte slot of a position: `p div 8` (41_filter.md R172; 90_conflicts.md C1, log entry 12). -/
def bitSlot (p : Nat) : Nat := p / 8

/-- The bit offset of a position: `p mod 8` (41_filter.md R172). -/
def bitOffset (p : Nat) : Nat := p % 8

/-- The mask `1 << off`, bit 0 the least significant (41_filter.md R172). -/
def bitMask (off : Nat) : Byte := 1#8 <<< off

/-- `BitsTest(j, b) = (Bits[j] >> b) & 1`, on the byte (20_memory.md R102). -/
def testByte (v : Byte) (b : Nat) : Bool := (v >>> b) &&& 1#8 = 1#8

/-- The filter bit at position p of a bit array: bit p mod 8 of byte p div 8 (41_filter.md R172, R174). -/
def arrayBit (epoch : Nat) (m : Memory) (p : Nat) : Bool := testByte (arrayByte epoch m (bitSlot p)) (bitOffset p)

/-- The filter bit at position p of the block's bit array. -/
def State.bitAt (s : State) (p : Nat) : Bool := arrayBit s.epoch s.bits p

/-- `BitsSet`: ORs the mask of position p into its byte (20_memory.md R102; 41_filter.md R195). -/
def setArrayBit (epoch : Nat) (m : Memory) (p : Nat) : Memory :=
  m.write (bitSlot p) (arrayByte epoch m (bitSlot p) ||| bitMask (bitOffset p))

/-- INSERT's loop: sets the bits of DH(0) to DH(k - 1) in a filter of `size` bytes, in increasing i
(41_filter.md R195). -/
def insertBits (epoch size : Nat) (h1 h2 : Word) (m : Memory) : Nat → Memory
  | 0 => m
  | i + 1 => setArrayBit epoch (insertBits epoch size h1 h2 m i) (bitPosition (derivedHash h1 h2 i) size)

/-- CONTAINS's answer: every bit of DH(0) to DH(k - 1) is set (41_filter.md R200, R201). -/
def containsBits (epoch size : Nat) (h1 h2 : Word) (m : Memory) : Nat → Bool
  | 0 => true
  | i + 1 => containsBits epoch size h1 h2 m i && arrayBit epoch m (bitPosition (derivedHash h1 h2 i) size)

end Sys2Proof.Machine
end

