-- ==== Sys2Proof/Machine/Filter.lean ====
section
/-! DEFINITION. The filter commands INIT, DEINIT, DERIVE, INSERT and CONTAINS (41_filter.md R180 to R201). -/

namespace Sys2Proof.Machine

/-- INIT's check: `CFG_SIZE < 1`, `CFG_SIZE > MAX_BITSET_BYTES` or `CFG_K < 1` (41_filter.md R180;
60_exceptions.md R221). -/
def State.badConfig (s : State) : Bool :=
  decide (s.cfgSize.toNat < 1) || decide (s.params.maxBitsetBytes < s.cfgSize.toNat) || decide (s.cfgK.toNat < 1)

/-- INIT (41_filter.md R180 to R183): INVALID_CONFIG with no other effect, else a cleared filter of `CFG_SIZE` bytes
and hash count `CFG_K`. -/
def execInit (s : State) : Host.Outcome State Fault Refusal :=
  if s.badConfig then .next (s.complete .invalidConfig)
  else .next ({ s with bits := s.bits.clear s.cfgSize.toNat, size := s.cfgSize, k := s.cfgK, inited := true }.complete .ok)

/-- DEINIT (41_filter.md R185): `STATUS.INIT <- 0`, `SIZE <- 0`, `K <- 0`; it never fails and leaves `Bits`. -/
def execDeinit (s : State) : Host.Outcome State Fault Refusal :=
  .next ({ s with inited := false, size := 0, k := 0 }.complete .ok)

/-- DERIVE (41_filter.md R190): ELEM_RANGE, else the base digests of the element. It needs no filter. -/
def execDerive (s : State) : Host.Outcome State Fault Refusal :=
  if s.elemTooLong then .next (s.complete .elemRange)
  else .next (s.setDigests.complete .ok)

/-- INSERT (41_filter.md R195): USE_BEFORE_INIT, then ELEM_RANGE, else sets the element's k bits and writes `H1` and
`H2`. -/
def execInsert (s : State) : Host.Outcome State Fault Refusal :=
  if !s.inited then .next (s.complete .useBeforeInit)
  else if s.elemTooLong then .next (s.complete .elemRange)
  else
    .next ({ s.setDigests with
      bits := insertBits s.epoch s.size.toNat (digest1 s.element) (digest2 s.element) s.bits s.k.toNat }.complete .ok)

/-- CONTAINS (41_filter.md R200): USE_BEFORE_INIT, then ELEM_RANGE, else `RESULT.MEMBER` says whether the element's k
bits are all set; writes `H1` and `H2`, never `Bits`. -/
def execContains (s : State) : Host.Outcome State Fault Refusal :=
  if !s.inited then .next (s.complete .useBeforeInit)
  else if s.elemTooLong then .next (s.complete .elemRange)
  else
    .next ({ s.setDigests with
      member := containsBits s.epoch s.size.toNat (digest1 s.element) (digest2 s.element) s.bits s.k.toNat }.complete .ok)

end Sys2Proof.Machine
end

