-- ==== Sys2Proof/Machine/HashCommand.lean ====
section
/-! DEFINITION. The HASH command (40_hash_engine.md R150, R151). -/

namespace Sys2Proof.Machine

/-- HASH (40_hash_engine.md R150): ELEM_RANGE if the element is too long, else
`HASH_OUT <- hash32(Elem[0 .. n-1], SEED)`. It needs no filter. -/
def execHash (s : State) : Host.Outcome State Fault Refusal :=
  if s.elemTooLong then .next (s.complete .elemRange)
  else .next ({ s with hashOut := hash32 s.element s.seed }.complete .ok)

end Sys2Proof.Machine
end

