-- ==== Sys2Proof/Machine/Dispatch.lean ====
section
/-! DEFINITION. One arm per command: the body that the engine's completion step runs (60_exceptions.md R232). -/

namespace Sys2Proof.Machine

def exec (i : Instr) (s : State) : Host.Outcome State Fault Refusal :=
  match i with
  | .init => Sys2Proof.Machine.execInit s
  | .deinit => Sys2Proof.Machine.execDeinit s
  | .hash => Sys2Proof.Machine.execHash s
  | .derive => Sys2Proof.Machine.execDerive s
  | .insert => Sys2Proof.Machine.execInsert s
  | .contains => Sys2Proof.Machine.execContains s

end Sys2Proof.Machine
end

