-- ==== Sys2Proof/Machine/Engine.lean ====
section
/-! DEFINITION. The engine's completion step, and who takes the next step (60_exceptions.md R232, R247). -/

namespace Sys2Proof.Machine

/-- The completion of an illegal command word: its body is `complete(ILLEGAL_CMD)` (60_exceptions.md R223, R232). -/
def completeIllegal (s : State) : Host.Outcome State Fault Refusal := .next (s.complete .illegalCmd)

/-- The engine step from `phase = BUSY(w)`: runs the body of `decode(w)` (60_exceptions.md R232). -/
def engineStep (w : Word) (s : State) : Host.Outcome State Fault Refusal :=
  match decode w with
  | .ok i => exec i s
  | .error _ => completeIllegal s

/-- The kinds of step of 60_exceptions.md R247, and none where the mover has nothing to do (log entry 3). -/
inductive Move where
  | host (op : HostOp)
  | engine (w : Word)
  | reset
  | idle
  deriving DecidableEq, Repr

/-- The host's next move: the head of its script. -/
def State.hostMove (s : State) : Move :=
  match s.script with
  | [] => .idle
  | op :: _ => .host op

/-- The engine's next move, enabled exactly when `phase = BUSY(w)` (R247). -/
def State.engineMove (s : State) : Move :=
  match s.phase with
  | .idle => .idle
  | .busy w => .engine w

/-- The next move: the schedule's head says who moves; with an empty schedule the engine goes first, then the host
(weak fairness, 70_reset_and_hazards.md R275; log entry 2). -/
def State.nextMove (s : State) : Move :=
  match s.schedule with
  | .host :: _ => s.hostMove
  | .engine :: _ => s.engineMove
  | .reset :: _ => .reset
  | [] => if s.busy then s.engineMove else s.hostMove

/-- The schedule's head is used up. -/
def State.advanceSchedule (s : State) : State := { s with schedule := s.schedule.tail }

/-- Takes a move (R247). -/
def perform (s : State) : Move → Host.Outcome State Fault Refusal
  | .host op => .next (hostStep s op)
  | .engine w => engineStep w s
  | .reset => .next s.resetStep
  | .idle => .next s

/-- The state in which the very next step completes command word `w`: `w` accepted (60_exceptions.md R230) and the
engine scheduled next (log entry 18). -/
def State.withCommand (s : State) (w : Word) : State := { s.accept w with schedule := .engine :: s.schedule }

end Sys2Proof.Machine
end

