-- ==== Sys2Proof/Machine/Step.lean ====
section
/-! DEFINITION. The step relation of the block as one function of its state (60_exceptions.md R247). -/

namespace Sys2Proof.Machine

/-- One step (60_exceptions.md R247): the mover the schedule names takes its move. -/
def step (s : State) : Host.Outcome State Fault Refusal := perform s.advanceSchedule s.nextMove

/-- `s` with the table's word as the command in flight and the engine scheduled next (log entry 18). -/
def State.withFetchWord (s : State) (nbits w : Nat) : State := s.withCommand (tableWord nbits w)

end Sys2Proof.Machine
end

