-- ==== Sys2Proof/Safety.lean ====
section
/-! DEFINITION. The terms that claims about runs use: the invariant, reachable states, the quiet runs of
41_filter.md R205, and which states no host can tell apart (70_reset_and_hazards.md R261). -/

namespace Sys2Proof.Machine

/-- The invariant of the block: what the spec says of every state a run reaches. -/
structure State.Inv (s : State) : Prop where
  /-- The parameters are in their ranges (00_scope.md R14, R15). -/
  params : s.params.Legal
  /-- A configured filter has 1 to MAX_BITSET_BYTES bytes and k >= 1 (10_state.md R38, R39). -/
  filterOn : s.inited = true → 1 ≤ s.size.toNat ∧ s.size.toNat ≤ s.params.maxBitsetBytes ∧ 1 ≤ s.k.toNat
  /-- Without a filter, SIZE and K are 0 (R38, R39). -/
  filterOff : s.inited = false → s.size = 0 ∧ s.k = 0
  /-- A command in flight has cleared DONE (60_exceptions.md R230, R232). -/
  busyNotDone : s.busy = true → s.done = false
  /-- The bit array is in canonical form. -/
  bitsWf : s.bits.wf
  /-- Only bytes of the cleared prefix are listed. -/
  bitsWithin : s.bits.within s.bits.cleared
  /-- The filter lies inside the prefix that INIT has cleared (41_filter.md R180). -/
  filterCleared : s.size.toNat ≤ s.bits.cleared
  /-- The cleared prefix lies inside the bit-array RAM (10_state.md R48). -/
  clearedWithin : s.bits.cleared ≤ s.params.maxBitsetBytes
  /-- The element buffer is in canonical form. -/
  elemWf : s.elem.wf
  /-- The element buffer lies inside its RAM (10_state.md R50). -/
  elemWithin : s.elem.within s.params.maxElemBytes
  /-- Nothing clears the element buffer (20_memory.md R86). -/
  elemNotCleared : s.elem.cleared = 0

/-- `t` is reached from `s` by steps. -/
inductive Reaches : State → State → Prop where
  | refl (s : State) : Reaches s s
  | tail {s t u : State} (before : Reaches s t) (last : step t = .next u) : Reaches s u

/-- A step of the kind 41_filter.md R205 allows between an INSERT and a CONTAINS: no reset, no INIT that completes
with OK, and no host access that clears a bit of the filter. -/
structure QuietStep (s t : State) : Prop where
  stepped : step s = .next t
  noReset : s.nextMove ≠ .reset
  noInit : ∀ w, s.nextMove = .engine w → decode w = .ok .init → t.err ≠ .ok
  noBitCleared : ∀ op, s.nextMove = .host op → ∀ p, p < 8 * s.size.toNat → s.bitAt p = true → t.bitAt p = true

/-- A run of quiet steps (R205). -/
inductive QuietRun : State → State → Prop where
  | refl (s : State) : QuietRun s s
  | tail {s t u : State} (before : QuietRun s t) (last : QuietStep t u) : QuietRun s u

/-- Two states that differ at most in bit-array bytes outside the active filter, which no host can observe
(20_memory.md R88; 70_reset_and_hazards.md R261). -/
structure SameVisible (s t : State) : Prop where
  others : t = { s with bits := t.bits }
  filter : ∀ j, s.inFilter j = true → s.bitsByte j = t.bitsByte j

end Sys2Proof.Machine
end

