-- ==== Sys2Proof/Certificates/Slice0/SpecForms.lean ====
section
/-! DEFINITION. Forms of the spec's own pseudocode and wording that the statements compare the machine with:
hash32 by index (40_hash_engine.md R142 to R146), CONTAINS's loop with its early exit (41_filter.md R200), the count of
set bits (R207), the first error that applies (60_exceptions.md R238), the bus error conditions (20_memory.md R89). -/

namespace Sys2Proof.SpecForms

open Sys2Proof.Machine

/-- `zext_32(data[i])`. -/
def byteAt (data : List Byte) (i : Nat) : Word := (data.getD i 0).zeroExtend 32

/-- `blk(b)` of 40_hash_engine.md R142. -/
def blk (data : List Byte) (b : Nat) : Word :=
  byteAt data (4 * b) ||| byteAt data (4 * b + 1) <<< 8 ||| byteAt data (4 * b + 2) <<< 16 |||
    byteAt data (4 * b + 3) <<< 24

/-- `h` after the first blocks, by the steps of R143 in their order. -/
def afterBlocks (data : List Byte) (seed : Word) : Nat → Word
  | 0 => seed
  | b + 1 =>
    let h := afterBlocks data seed b ^^^ rotl32 (blk data b * 0xcc9e2d51#32) 15 * 0x1b873593#32
    rotl32 h 13 * 5#32 + 0xe6546b64#32

/-- `k1` accumulated from the first tail bytes with the operation `acc` (OR in R146, a sum in R144). -/
def tailAcc (acc : Word → Word → Word) (data : List Byte) (nb : Nat) : Nat → Word
  | 0 => 0
  | j + 1 => acc (tailAcc acc data nb j) (byteAt data (4 * nb + j) <<< (8 * j))

/-- The whole pseudocode of `hash32` (R146), with nb = n div 4 and t = n mod 4. -/
def hash32ByIndex (data : List Byte) (seed : Word) : Word :=
  let n := data.length
  let nb := n / 4
  let t := n % 4
  let h := afterBlocks data seed nb
  let k1 := tailAcc (· ||| ·) data nb t
  let h := if t = 0 then h else h ^^^ rotl32 (k1 * 0xcc9e2d51#32) 15 * 0x1b873593#32
  let h := h ^^^ BitVec.ofNat 32 n
  let h := h ^^^ h >>> 16
  let h := h * 0x85ebca6b#32
  let h := h ^^^ h >>> 13
  let h := h * 0xc2b2ae35#32
  h ^^^ h >>> 16

/-- CONTAINS's loop with `exit loop` at the first clear bit (41_filter.md R200), from index `i` on with `n` indexes
left. -/
def memberEarlyExit (bit : Nat → Bool) (h1 h2 : Word) (size : Nat) : Nat → Nat → Bool
  | _, 0 => true
  | i, n + 1 => if bit ((h1 + BitVec.ofNat 32 i * h2).toNat % size) then memberEarlyExit bit h1 h2 size (i + 1) n else false

/-- How many of the positions below `n` hold a set bit (41_filter.md R207). -/
def setBitsBelow (s : State) : Nat → Nat
  | 0 => 0
  | p + 1 => setBitsBelow s p + (if s.bitAt p then 1 else 0)

/-- The error conditions of a command, in the order of 60_exceptions.md R238. -/
def errorChecks (i : Instr) (s : State) : List (Prop × ErrorCode) :=
  [((i = .insert ∨ i = .contains) ∧ s.inited = false, .useBeforeInit),
   ((i = .hash ∨ i = .derive ∨ i = .insert ∨ i = .contains) ∧ s.params.maxElemBytes < s.elemLen.toNat, .elemRange),
   (i = .init ∧ (s.cfgSize.toNat < 1 ∨ s.params.maxBitsetBytes < s.cfgSize.toNat ∨ s.cfgK.toNat < 1), .invalidConfig)]

/-- `e` is the first error of the list whose condition holds, OK where none does (R238). -/
def FirstError : List (Prop × ErrorCode) → ErrorCode → Prop
  | [], e => e = .ok
  | c :: rest, e => (c.1 → e = c.2) ∧ (¬ c.1 → FirstError rest e)

/-- The first address past a window, for each window that holds offset `a` (20_memory.md R83). -/
def windowEnd (p : Params) (a : Nat) : Option Nat :=
  if a < 0x1000 then some 0x1000
  else if 0x10000000 ≤ a ∧ a < 0x10000000 + p.maxElemBytes then some (0x10000000 + p.maxElemBytes)
  else if 0x80000000 ≤ a ∧ a < 0x80000000 + p.maxBitsetBytes then some (0x80000000 + p.maxBitsetBytes)
  else none

/-- The conditions of 20_memory.md R89, one by one: unmapped; reserved part of the register window; width or alignment
not allowed there (R84, R90); a byte outside the window. -/
def IsBusError (p : Params) (addr : Word) (n : Nat) : Prop :=
  windowEnd p addr.toNat = none ∨ (0x040 ≤ addr.toNat ∧ addr.toNat < 0x1000) ∨ (addr.toNat < 0x1000 ∧ n ≠ 4) ∨
    addr.toNat % n ≠ 0 ∨ ∃ e, windowEnd p addr.toNat = some e ∧ e < addr.toNat + n

end Sys2Proof.SpecForms
end

