-- ==== Sys2Proof/Certificates/Slice0/Obligations.lean ====
section
/-! DEFINITION. The statements for the provers, from the numbered rules of spec/. Each docstring names the rules. -/

open Sys2Proof Sys2Proof.Machine Sys2Proof.SpecForms

/-! ### Encoding -/

/-- 30_encoding.md R122, R123 and 95_test_vectors.md section 3.8: the six command words and a few illegal ones. -/
def Obligations.CommandWordsDecode : Prop :=
  decode 0x00000001 = .ok .init ∧ decode 0x00000002 = .ok .deinit ∧ decode 0x00000003 = .ok .hash ∧
  decode 0x00000004 = .ok .derive ∧ decode 0x00000005 = .ok .insert ∧ decode 0x00000006 = .ok .contains ∧
  decode 0x00000000 = .error .reservedOpcode ∧ decode 0x00000007 = .error .reservedOpcode ∧
  decode 0x000000ff = .error .reservedOpcode ∧ decode 0x00000106 = .error .reservedBits ∧
  decode 0x03000003 = .error .reservedBits

/-- 30_encoding.md R122, R123, R125: decoding and encoding agree in both directions, on words, on the bytes of a word
and on the table's numbering. -/
def Obligations.DecodeAndEncodeAgree : Prop :=
  (∀ i : Instr, i.wellFormed = true → decode (encode i) = .ok i) ∧
  (∀ (w : Word) (i : Instr), decode w = .ok i → w = encode i) ∧
  (∀ (bytes : List Byte) (i : Instr), decodeBytes bytes = .ok i ↔ bytes = encodeBytes i) ∧
  (∀ (n : Nat) (i : Instr), n < 2 ^ 32 → (decodeTableWord 32 n = some i ↔ n = (encode i).toNat))

/-- 30_encoding.md R124, 60_exceptions.md R223: which words are illegal, that such a word is accepted like any other,
and that it completes with ILLEGAL_CMD and no other effect. -/
def Obligations.IllegalWordsCompleteWithIllegalCmd : Prop :=
  (∀ w : Word, (∃ e, decode w = .error e) ↔
    (w.toNat % 256 = 0x00 ∨ (0x07 ≤ w.toNat % 256 ∧ w.toNat % 256 ≤ 0xFF) ∨ w.toNat / 256 ≠ 0)) ∧
  (∀ (s : State) (w : Word) (e : DecodeError), decode w = .error e →
    (s.phase = .idle →
      busWrite s 0x00C .word w = { s with phase := .busy w, done := false, answer := some .done }) ∧
    (s.nextMove = .engine w →
      step s = .next { s with
        schedule := s.schedule.tail, err := .illegalCmd, done := true, phase := .idle }))

/-! ### Steps -/

/-- 60_exceptions.md R232, R247 (b); log entries 1, 2, 18: with command word w in flight and the engine moving next, a
step is the decoded command's body; and the word that `withFetchWord` places is accepted and run by the very next
step. -/
def Obligations.StepRunsTheDecodedCommand : Prop :=
  (∀ (s : State) (w : Word) (i : Instr) (rest : List Mover), s.phase = .busy w → decode w = .ok i →
    (s.schedule = .engine :: rest ∨ (s.schedule = [] ∧ rest = [])) → step s = exec i { s with schedule := rest }) ∧
  (∀ (s : State) (n w : Nat) (i : Instr), decodeTableWord n w = some i →
    step (s.withFetchWord n w) = exec i { s with phase := .busy (BitVec.ofNat 32 (w % 2 ^ n)), done := false })

/-- 60_exceptions.md R247 (a); log entries 1, 2: when the host moves next, a step is its next access. -/
def Obligations.StepPerformsTheHostAccess : Prop :=
  ∀ (s : State) (a : Access) (script : List HostOp) (rest : List Mover), s.script = .access a :: script →
    (s.schedule = .host :: rest ∨ (s.schedule = [] ∧ rest = [] ∧ s.phase = .idle)) →
    step s = .next (busAccess { s with script := script, schedule := rest } a)

/-- 60_exceptions.md R247, R248: no step is stuck, every host access is answered, every command completes. -/
def Obligations.NoStepIsStuck : Prop :=
  ∀ s : State, ∃ t, step s = .next t ∧
    (∀ op, s.nextMove = .host op → ∃ a, t.answer = some a) ∧
    (∀ w, s.nextMove = .engine w → t.phase = .idle ∧ t.done = true)

/-- 60_exceptions.md R230: acceptance, and the dropping of a command written while one is in flight. -/
def Obligations.CommandWriteIsAccepted : Prop :=
  ∀ (s : State) (w : Word),
    (s.phase = .idle →
      busWrite s 0x00C .word w = { s with phase := .busy w, done := false, answer := some .done } ∧
      (busWrite s 0x00C .word w).statusWord.getLsbD 0 = true ∧
      (busWrite s 0x00C .word w).statusWord.getLsbD 2 = false) ∧
    (∀ op, s.phase = .busy op → busWrite s 0x00C .word w = { s with ovr := true, answer := some .done })

/-! ### Commands -/

/-- 40_hash_engine.md R150: HASH, its word, both outcomes, for every state; everything else is unchanged. -/
def Obligations.HashCommand : Prop :=
  decode 0x00000003 = .ok .hash ∧ ∀ s : State,
    (s.elemLen.toNat ≤ s.params.maxElemBytes →
      exec .hash s = .next { s with
        hashOut := hash32 s.element s.seed, err := .ok, done := true, phase := .idle }) ∧
    (s.params.maxElemBytes < s.elemLen.toNat →
      exec .hash s = .next { s with err := .elemRange, done := true, phase := .idle })

/-- 40_hash_engine.md R142 to R146: the machine's hash32 is the spec's pseudocode by index, for every input; and the
tail accumulation is the same with OR, XOR or addition. -/
def Obligations.HashIsTheSpecsPseudocode : Prop :=
  (∀ (data : List Byte) (seed : Word), hash32 data seed = hash32ByIndex data seed) ∧
  (∀ (data : List Byte) (nb t : Nat), t < 4 →
    tailAcc (· ||| ·) data nb t = tailAcc (· + ·) data nb t ∧
    tailAcc (· ||| ·) data nb t = tailAcc (· ^^^ ·) data nb t)

/-- 40_hash_engine.md R151: HASH of the empty element gives fmix(SEED), and 0 for seed 0. -/
def Obligations.HashOfEmptyElement : Prop :=
  ∀ s : State, s.elemLen = 0 → ∃ t, exec .hash s = .next t ∧ t.hashOut = fmix s.seed ∧ (s.seed = 0 → t.hashOut = 0)

/-- 41_filter.md R190, R170, R175: DERIVE, its word, both outcomes, for every state; everything else is unchanged. -/
def Obligations.DeriveCommand : Prop :=
  decode 0x00000004 = .ok .derive ∧ ∀ s : State,
    (s.elemLen.toNat ≤ s.params.maxElemBytes →
      exec .derive s = .next { s with
        h1 := hash32 s.element 0, h2 := hash32 s.element (hash32 s.element 0),
        err := .ok, done := true, phase := .idle }) ∧
    (s.params.maxElemBytes < s.elemLen.toNat →
      exec .derive s = .next { s with err := .elemRange, done := true, phase := .idle })

/-- 41_filter.md R180, R182: a successful INIT, also of a configured filter: the new filter is all zero, no other byte
of the bit array changes, and everything else is unchanged. -/
def Obligations.InitCommand : Prop :=
  ∀ s : State, 1 ≤ s.cfgSize.toNat → s.cfgSize.toNat ≤ s.params.maxBitsetBytes → 1 ≤ s.cfgK.toNat →
    ∃ t, exec .init s = .next t ∧
      t = { s with
        size := s.cfgSize, k := s.cfgK, inited := true, bits := t.bits, err := .ok, done := true, phase := .idle } ∧
      (∀ j, j < s.cfgSize.toNat → t.bitsByte j = 0) ∧
      (∀ j, s.cfgSize.toNat ≤ j → t.bitsByte j = s.bitsByte j)

/-- 41_filter.md R183: a failing INIT changes nothing but ERR, DONE and BUSY. -/
def Obligations.FailingInitChangesNothing : Prop :=
  ∀ s : State, (s.cfgSize.toNat < 1 ∨ s.params.maxBitsetBytes < s.cfgSize.toNat ∨ s.cfgK.toNat < 1) →
    exec .init s = .next { s with err := .invalidConfig, done := true, phase := .idle }

/-- 41_filter.md R185: DEINIT, its word, for every state: the bit array keeps its bytes and the window reads 0. -/
def Obligations.DeinitCommand : Prop :=
  decode 0x00000002 = .ok .deinit ∧ ∀ s : State, ∃ t, exec .deinit s = .next t ∧
    t = { s with inited := false, size := 0, k := 0, err := .ok, done := true, phase := .idle } ∧
    (∀ j, t.bitsByte j = s.bitsByte j) ∧ (∀ j, t.windowByte j = 0)

/-- 41_filter.md R195, R170 to R172: a successful INSERT sets exactly the bits of the element's k derived hashes,
leaves every byte without one of them, writes H1 and H2, and changes nothing else. -/
def Obligations.InsertCommand : Prop :=
  ∀ s : State, s.inited = true → s.elemLen.toNat ≤ s.params.maxElemBytes →
    ∃ t, exec .insert s = .next t ∧
      t = { s with
        h1 := hash32 s.element 0, h2 := hash32 s.element (hash32 s.element 0), bits := t.bits,
        err := .ok, done := true, phase := .idle } ∧
      (∀ p, t.bitAt p = true ↔ s.bitAt p = true ∨
        ∃ i, i < s.k.toNat ∧ (t.h1 + BitVec.ofNat 32 i * t.h2).toNat % s.size.toNat = p) ∧
      (∀ j, (∀ i, i < s.k.toNat → (t.h1 + BitVec.ofNat 32 i * t.h2).toNat % s.size.toNat / 8 ≠ j) →
        t.bitsByte j = s.bitsByte j)

/-- 41_filter.md R200: a successful CONTAINS, with the spec's loop and its early exit; the bit array and everything
else is unchanged. -/
def Obligations.ContainsCommand : Prop :=
  ∀ s : State, s.inited = true → s.elemLen.toNat ≤ s.params.maxElemBytes →
    exec .contains s = .next { s with
      h1 := hash32 s.element 0, h2 := hash32 s.element (hash32 s.element 0),
      member := memberEarlyExit s.bitAt (hash32 s.element 0) (hash32 s.element (hash32 s.element 0)) s.size.toNat 0
        s.k.toNat,
      err := .ok, done := true, phase := .idle }

/-- 41_filter.md R201: MEMBER is the conjunction over all i < k, whether or not the loop exits early. -/
def Obligations.MemberIsTheConjunction : Prop :=
  ∀ s t : State, s.inited = true → s.elemLen.toNat ≤ s.params.maxElemBytes → exec .contains s = .next t →
    (t.member = true ↔
      ∀ i, i < s.k.toNat → s.bitAt ((t.h1 + BitVec.ofNat 32 i * t.h2).toNat % s.size.toNat) = true) ∧
    t.member = memberEarlyExit s.bitAt t.h1 t.h2 s.size.toNat 0 s.k.toNat

/-! ### Errors -/

/-- 60_exceptions.md R238: the reported code is the first that applies in the rule's order. -/
def Obligations.ErrorPriority : Prop :=
  (∀ (w : Word) (s t : State) (e : DecodeError), decode w = .error e → engineStep w s = .next t →
    t.err = .illegalCmd) ∧
  (∀ (w : Word) (i : Instr) (s t : State), decode w = .ok i → engineStep w s = .next t →
    FirstError (errorChecks i s) t.err)

/-- 60_exceptions.md R226: a failed command has no effect other than on BUSY, DONE and ERR (and, through DONE, irq). -/
def Obligations.FailedCommandHasNoOtherEffect : Prop :=
  ∀ (w : Word) (s t : State), engineStep w s = .next t → t.err ≠ .ok →
    t = { s with err := t.err, done := true, phase := .idle } ∧ t.irq = s.irqEn

/-- 60_exceptions.md R222: INSERT and CONTAINS without a filter complete with USE_BEFORE_INIT and no other effect; no
other command raises it. -/
def Obligations.UseBeforeInit : Prop :=
  (∀ (s : State) (i : Instr), (i = .insert ∨ i = .contains) → s.inited = false →
    exec i s = .next { s with err := .useBeforeInit, done := true, phase := .idle }) ∧
  (∀ (s t : State) (i : Instr), (i = .derive ∨ i = .hash ∨ i = .init ∨ i = .deinit) → exec i s = .next t →
    t.err ≠ .useBeforeInit)

/-- 60_exceptions.md R224, with the order of R238: HASH and DERIVE always, INSERT and CONTAINS on a configured filter,
complete with ELEM_RANGE and no other effect when the element is too long. -/
def Obligations.TooLongElement : Prop :=
  ∀ (s : State) (i : Instr), s.params.maxElemBytes < s.elemLen.toNat →
    (i = .hash ∨ i = .derive ∨ ((i = .insert ∨ i = .contains) ∧ s.inited = true)) →
    exec i s = .next { s with err := .elemRange, done := true, phase := .idle }

/-- 60_exceptions.md R225: no command raises an error for any element contents, any seed, any digest value, any bit
array: the error code is the same whatever they are. -/
def Obligations.DataRaisesNoError : Prop :=
  ∀ (i : Instr) (s : State) (elem bits : Memory) (seed hashOut h1 h2 : Word), ∃ t u, exec i s = .next t ∧
    exec i { s with elem := elem, bits := bits, seed := seed, hashOut := hashOut, h1 := h1, h2 := h2 } = .next u ∧
    u.err = t.err

/-! ### What a step may change -/

/-- 10_state.md R38, R39, R42 to R45: SIZE, K and STATUS.INIT change only by a successful INIT or DEINIT, HASH_OUT only
by a successful HASH, H1 and H2 only by a successful DERIVE, INSERT or CONTAINS, RESULT only by a successful CONTAINS
(or by reset). -/
def Obligations.ResultRegistersHaveTheirWriters : Prop :=
  ∀ s t : State, step s = .next t → s.nextMove ≠ .reset →
    ((t.size ≠ s.size ∨ t.k ≠ s.k ∨ t.inited ≠ s.inited) →
      ∃ w, s.nextMove = .engine w ∧ t.err = .ok ∧ (decode w = .ok .init ∨ decode w = .ok .deinit)) ∧
    (t.hashOut ≠ s.hashOut → ∃ w, s.nextMove = .engine w ∧ t.err = .ok ∧ decode w = .ok .hash) ∧
    ((t.h1 ≠ s.h1 ∨ t.h2 ≠ s.h2) → ∃ w, s.nextMove = .engine w ∧ t.err = .ok ∧
      (decode w = .ok .derive ∨ decode w = .ok .insert ∨ decode w = .ok .contains)) ∧
    (t.member ≠ s.member → ∃ w, s.nextMove = .engine w ∧ t.err = .ok ∧ decode w = .ok .contains)

/-- 10_state.md R34, R52, R55, 60_exceptions.md R230, R232: who changes ERR, and who sets and who clears BUSY, INIT, DONE
and OVR, over every step but a reset. ERR and the set of DONE and the clear of BUSY: a completion. The set of BUSY: a CMD
write while idle. INIT: set by an INIT that completes with OK, cleared by DEINIT. The clear of DONE: an accepted CMD write
or a STATUS write with bit 2 set. OVR: set by a host write while busy, cleared by a STATUS write with bit 3 set. -/
def Obligations.StatusFlagsHaveTheirWriters : Prop :=
  ∀ s t : State, step s = .next t → s.nextMove ≠ .reset →
    (t.err ≠ s.err → ∃ w, s.nextMove = .engine w) ∧
    (s.done = false → t.done = true → ∃ w, s.nextMove = .engine w) ∧
    (s.done = true → t.done = false →
      ∃ addr w, s.nextMove = .host (.access (.write addr .word w)) ∧
        ((addr.toNat = 0x00C ∧ s.busy = false ∧ t.phase = .busy w) ∨ (addr.toNat = 0x008 ∧ w.getLsbD 2 = true))) ∧
    (s.busy = true → t.busy = false → ∃ w, s.nextMove = .engine w) ∧
    (s.busy = false → t.busy = true →
      ∃ addr w, s.nextMove = .host (.access (.write addr .word w)) ∧ addr.toNat = 0x00C ∧ t.phase = .busy w) ∧
    (s.inited = false → t.inited = true →
      ∃ w, s.nextMove = .engine w ∧ decode w = .ok .init ∧ t.err = .ok) ∧
    (s.inited = true → t.inited = false → ∃ w, s.nextMove = .engine w ∧ decode w = .ok .deinit) ∧
    (s.ovr = false → t.ovr = true →
      s.busy = true ∧ ∃ addr n w, s.nextMove = .host (.access (.write addr n w))) ∧
    (s.ovr = true → t.ovr = false →
      ∃ addr w, s.nextMove = .host (.access (.write addr .word w)) ∧ addr.toNat = 0x008 ∧ w.getLsbD 3 = true)

/-- 10_state.md R48, R50, 30_encoding.md R121, 20_memory.md R86: no command writes the element buffer or a register the
host sets, and only INIT and INSERT write the bit array. -/
def Obligations.CommandsLeaveOperandsAndBuffers : Prop :=
  ∀ (i : Instr) (s t : State), exec i s = .next t →
    t.elem = s.elem ∧ t.cfgSize = s.cfgSize ∧ t.cfgK = s.cfgK ∧ t.seed = s.seed ∧ t.elemLen = s.elemLen ∧
    t.irqEn = s.irqEn ∧ t.ovr = s.ovr ∧ t.params = s.params ∧
    (i ≠ .init → i ≠ .insert → t.bits = s.bits)

/-- 20_memory.md R94 to R96, 70_reset_and_hazards.md R271: no host step changes what the command in flight reads, or a
result, while it is in flight. -/
def Obligations.HostCannotDisturbTheCommandInFlight : Prop :=
  ∀ (s t : State) (op : HostOp), s.busy = true → s.nextMove = .host op → step s = .next t →
    t.phase = s.phase ∧ t.cfgSize = s.cfgSize ∧ t.cfgK = s.cfgK ∧ t.seed = s.seed ∧ t.elemLen = s.elemLen ∧
    t.elem = s.elem ∧ t.bits = s.bits ∧ t.size = s.size ∧ t.k = s.k ∧ t.inited = s.inited ∧ t.err = s.err ∧
    t.hashOut = s.hashOut ∧ t.h1 = s.h1 ∧ t.h2 = s.h2 ∧ t.member = s.member

/-- 60_exceptions.md R233, 10_state.md R50, and program P5 of 95_test_vectors.md: a command's results are the same
whether it completes at once or after any one host step made while it is in flight. -/
def Obligations.ResultsDoNotDependOnTheSchedule : Prop :=
  ∀ (s : State) (w : Word) (op : HostOp), s.phase = .busy w → ∃ t u,
    engineStep w s = .next t ∧ engineStep w (hostStep s op) = .next u ∧
    u.err = t.err ∧ u.inited = t.inited ∧ u.size = t.size ∧ u.k = t.k ∧ u.hashOut = t.hashOut ∧ u.h1 = t.h1 ∧
    u.h2 = t.h2 ∧ u.member = t.member ∧ u.bits = t.bits ∧ u.elem = t.elem

/-! ### The filter -/

/-- 41_filter.md R174: the addressed position is below S, inside the source's bound; so INSERT changes no bit from
position S on, and CONTAINS does not depend on one. -/
def Obligations.AddressedBitsAreBelowSize : Prop :=
  (∀ (v : Word) (size : Nat), 1 ≤ size →
    bitPosition v size < size ∧ bitSlot (bitPosition v size) ≤ (size - 1) / 8 ∧ (size - 1) / 8 < size ∧
    8 * bitSlot (bitPosition v size) + bitOffset (bitPosition v size) = bitPosition v size ∧
    bitPosition v size < size * 8) ∧
  (∀ s t : State, 1 ≤ s.size.toNat → exec .insert s = .next t → ∀ p, s.size.toNat ≤ p → t.bitAt p = s.bitAt p) ∧
  (∀ s t : State, ∀ m : Memory, 1 ≤ s.size.toNat → exec .contains s = .next t →
    (∀ p, p < s.size.toNat → arrayBit s.epoch m p = s.bitAt p) →
    ∃ u, exec .contains { s with bits := m } = .next u ∧ u.member = t.member)

/-- 41_filter.md R196: after any sequence of INSERTs the bit array is the initial array ORed with the union of the
addressed bits, so neither order nor repetition matters; each INSERT of the machine is one step of that sequence. -/
def Obligations.InsertsOrTheUnionOfAddressedBits : Prop :=
  (∀ (epoch size k : Nat) (m : Memory) (es : List (List Byte)) (p : Nat),
    arrayBit epoch (es.foldl (fun m e => insertBits epoch size (digest1 e) (digest2 e) m k) m) p = true ↔
      arrayBit epoch m p = true ∨
        ∃ e, e ∈ es ∧ ∃ i, i < k ∧ (digest1 e + BitVec.ofNat 32 i * digest2 e).toNat % size = p) ∧
  (∀ (epoch size k : Nat) (m : Memory) (es fs : List (List Byte)), (∀ e, e ∈ es ↔ e ∈ fs) → ∀ j,
    arrayByte epoch (es.foldl (fun m e => insertBits epoch size (digest1 e) (digest2 e) m k) m) j =
      arrayByte epoch (fs.foldl (fun m e => insertBits epoch size (digest1 e) (digest2 e) m k) m) j) ∧
  (∀ s : State, s.inited = true → s.elemLen.toNat ≤ s.params.maxElemBytes → ∃ t, exec .insert s = .next t ∧
    t.bits = [s.element].foldl
      (fun m e => insertBits s.epoch s.size.toNat (digest1 e) (digest2 e) m s.k.toNat) s.bits)

/-- 41_filter.md R207: the number of set bits is non-decreasing across INSERTs, counted over any prefix. -/
def Obligations.SetBitsNeverDecrease : Prop :=
  ∀ s t : State, exec .insert s = .next t → ∀ n, setBitsBelow s n ≤ setBitsBelow t n

/-- 41_filter.md R205: no false negatives. After an INSERT that completes with OK, along every run without a successful
INIT, a bit cleared by the host or a reset, every CONTAINS of the same element that completes with OK gives MEMBER 1. -/
def Obligations.NoFalseNegatives : Prop :=
  ∀ s t u v : State, s.Inv → exec .insert s = .next t → t.err = .ok → QuietRun t u →
    u.element = s.element → exec .contains u = .next v → v.err = .ok → v.member = true

/-- 41_filter.md R206: DERIVE of one element gives one pair of digests, and CONTAINS of one element gives one answer
while the filter is unchanged. -/
def Obligations.SameElementSameAnswers : Prop :=
  (∀ s t s' t' : State, s.element = t.element → exec .derive s = .next s' → exec .derive t = .next t' →
    s'.err = .ok → t'.err = .ok → s'.h1 = t'.h1 ∧ s'.h2 = t'.h2) ∧
  (∀ s t s' t' : State, s.element = t.element → s.size = t.size → s.k = t.k → (∀ j, s.bitsByte j = t.bitsByte j) →
    exec .contains s = .next s' → exec .contains t = .next t' → s'.err = .ok → t'.err = .ok →
    s'.member = t'.member)

/-- 41_filter.md R208: with every addressable bit set, every CONTAINS gives MEMBER 1, for every element. -/
def Obligations.SaturatedFilterContainsEverything : Prop :=
  ∀ s : State, s.inited = true → 1 ≤ s.size.toNat → (∀ p, p < s.size.toNat → s.bitAt p = true) →
    ∀ (elem : Memory) (n : Word), n.toNat ≤ s.params.maxElemBytes →
      ∃ t, exec .contains { s with elem := elem, elemLen := n } = .next t ∧ t.err = .ok ∧ t.member = true

/-- 41_filter.md R209: the boundary filter of one byte, for k = 1 and for any k. -/
def Obligations.BoundaryFilter : Prop :=
  ∀ s : State, s.inited = true → s.size.toNat = 1 → 1 ≤ s.k.toNat → s.bitsByte 0 = 0 →
    s.elemLen.toNat ≤ s.params.maxElemBytes →
    (∀ v : Word, bitPosition v s.size.toNat = 0) ∧
    ∃ t, exec .insert s = .next t ∧ t.err = .ok ∧ t.bitsByte 0 = 0x01 ∧
      ∀ (elem : Memory) (n : Word), n.toNat ≤ t.params.maxElemBytes →
        ∃ u, exec .contains { t with elem := elem, elemLen := n } = .next u ∧ u.err = .ok ∧ u.member = true

/-- 41_filter.md R210: the four element commands complete without error on the empty element when their other
preconditions hold. -/
def Obligations.EmptyElement : Prop :=
  ∀ (s : State) (i : Instr), s.elemLen = 0 →
    (i = .hash ∨ i = .derive ∨ ((i = .insert ∨ i = .contains) ∧ s.inited = true)) →
    ∃ t, exec i s = .next t ∧ t.err = .ok

/-- 41_filter.md R182, R200: on a filter that INIT has just made, over whatever stood before, every CONTAINS gives
MEMBER 0. -/
def Obligations.FreshFilterContainsNothing : Prop :=
  ∀ s t : State, exec .init s = .next t → t.err = .ok → ∀ (elem : Memory) (n : Word),
    n.toNat ≤ t.params.maxElemBytes →
    ∃ u, exec .contains { t with elem := elem, elemLen := n } = .next u ∧ u.err = .ok ∧ u.member = false

/-! ### Registers -/

/-- 10_state.md R32 to R47, R53, 20_memory.md R84, R96, 60_exceptions.md R220: what a word read at each of the sixteen
offsets answers, in every phase, and that it changes nothing else; STATUS field by field, with the five error codes. -/
def Obligations.RegisterReads : Prop :=
  ∀ s : State, s.params.Legal →
    busRead s 0x000 .word = { s with answer := some (.data 0x424C4631) } ∧
    busRead s 0x004 .word = { s with answer := some (.data (if s.irqEn then 1 else 0)) } ∧
    (∃ v : Word, busRead s 0x008 .word = { s with answer := some (.data v) } ∧
      v.getLsbD 0 = s.busy ∧ v.getLsbD 1 = s.inited ∧ v.getLsbD 2 = s.done ∧ v.getLsbD 3 = s.ovr ∧
      v.extractLsb' 4 4 = 0 ∧ v.extractLsb' 12 20 = 0 ∧
      (s.err = .ok → v.extractLsb' 8 4 = 0) ∧ (s.err = .invalidConfig → v.extractLsb' 8 4 = 1) ∧
      (s.err = .useBeforeInit → v.extractLsb' 8 4 = 2) ∧ (s.err = .illegalCmd → v.extractLsb' 8 4 = 3) ∧
      (s.err = .elemRange → v.extractLsb' 8 4 = 4)) ∧
    busRead s 0x00C .word = { s with answer := some (.data 0) } ∧
    busRead s 0x010 .word = { s with answer := some (.data s.cfgSize) } ∧
    busRead s 0x014 .word = { s with answer := some (.data s.cfgK) } ∧
    busRead s 0x018 .word = { s with answer := some (.data s.size) } ∧
    busRead s 0x01C .word = { s with answer := some (.data s.k) } ∧
    busRead s 0x020 .word = { s with answer := some (.data s.seed) } ∧
    busRead s 0x024 .word = { s with answer := some (.data s.elemLen) } ∧
    busRead s 0x028 .word = { s with answer := some (.data s.hashOut) } ∧
    busRead s 0x02C .word = { s with answer := some (.data s.h1) } ∧
    busRead s 0x030 .word = { s with answer := some (.data s.h2) } ∧
    busRead s 0x034 .word = { s with answer := some (.data (if s.member then 1 else 0)) } ∧
    (∃ v : Word, busRead s 0x038 .word = { s with answer := some (.data v) } ∧ v.toNat = s.params.maxBitsetBytes) ∧
    (∃ v : Word, busRead s 0x03C .word = { s with answer := some (.data v) } ∧ v.toNat = s.params.maxElemBytes)

/-- 10_state.md R34: a host write of w to STATUS, in every phase: W1C of DONE and OVR, no other field changes. -/
def Obligations.StatusWriteOneToClear : Prop :=
  ∀ (s : State) (w : Word), busWrite s 0x008 .word w = { s with
    done := if w.getLsbD 2 then false else s.done,
    ovr := if w.getLsbD 3 then false else s.ovr, answer := some .done }

/-- 10_state.md R33: CTRL, in every phase: bit 0 is written, reserved bits read 0, 1 lets DONE drive irq, 0 holds it
low; it is 0 after reset. -/
def Obligations.ControlRegister : Prop :=
  State.reset.readReg .ctrl = 0x00000000 ∧ ∀ (s : State) (w : Word), ∃ t, busWrite s 0x004 .word w = t ∧
    t = { s with irqEn := w.getLsbD 0, answer := some .done } ∧
    (busRead t 0x004 .word).answer = some (.data (w &&& 1)) ∧
    (w.getLsbD 0 = true → t.irq = s.done) ∧ (w.getLsbD 0 = false → t.irq = false)

/-- 10_state.md R53: a write to a read-only register (ID, SIZE, K, HASH_OUT, H1, H2, RESULT, MAX_SIZE, MAX_ELEM, at the
offsets of R32 to R47) is ignored, in every phase, and CMD reads 0. -/
def Obligations.ReadOnlyRegisters : Prop :=
  (∀ (s : State) (w : Word), ∀ a ∈ [(0x000 : Word), 0x018, 0x01C, 0x028, 0x02C, 0x030, 0x034, 0x038, 0x03C],
    busWrite s a .word w = { s with answer := some .done }) ∧
  (∀ s : State, busRead s 0x00C .word = { s with answer := some (.data 0) })

/-- 10_state.md R36, R37, R40, R41, 70_reset_and_hazards.md R272: an idle write of any value to CFG_SIZE, CFG_K, SEED or
ELEM_LEN is stored, reads back as written, and leaves the active filter and everything else. -/
def Obligations.ConfigurationRegisters : Prop :=
  ∀ (s : State) (w : Word), s.phase = .idle →
    busWrite s 0x010 .word w = { s with cfgSize := w, answer := some .done } ∧
    busWrite s 0x014 .word w = { s with cfgK := w, answer := some .done } ∧
    busWrite s 0x020 .word w = { s with seed := w, answer := some .done } ∧
    busWrite s 0x024 .word w = { s with elemLen := w, answer := some .done } ∧
    ∀ a : Word, (a = 0x010 ∨ a = 0x014 ∨ a = 0x020 ∨ a = 0x024) →
      (busRead (busWrite s a .word w) a .word).answer = some (.data w)

/-- 60_exceptions.md R236, R237: a completion with IRQ_EN raises irq and nothing else does but a CTRL write that enables
it; a dropped write does not move it, whether or not OVR was set before, and OVR itself does not drive it. -/
def Obligations.InterruptComesFromCompletion : Prop :=
  ∀ s t : State, step s = .next t →
    (∀ w, s.nextMove = .engine w → t.irq = s.irqEn) ∧
    (s.irq = false → t.irq = true → (∃ w, s.nextMove = .engine w) ∨
      (s.done = true ∧
        ∃ addr w, s.nextMove = .host (.access (.write addr .word w)) ∧ addr.toNat = 0x004 ∧ w.getLsbD 0 = true)) ∧
    (t.ovr ≠ s.ovr → t.ovr = true → t.irq = s.irq) ∧
    (∀ addr n w, s.busy = true → s.nextMove = .host (.access (.write addr n w)) → addr.toNat ≠ 0x004 →
      addr.toNat ≠ 0x008 → t.irq = s.irq) ∧
    (∀ b : Bool, { s with ovr := b }.irq = s.irq)

/-! ### The bus -/

/-- 20_memory.md R89, 60_exceptions.md R228: exactly the accesses the rule lists are bus errors; one answers ERROR with
data 0, and changes nothing. -/
def Obligations.BusErrors : Prop :=
  ∀ (s : State) (addr : Word) (n : Width) (v : Word), s.params.Legal →
    (IsBusError s.params addr n.bytes →
      busRead s addr n = { s with answer := some .error } ∧ busWrite s addr n v = { s with answer := some .error } ∧
      Answer.error.value = 0) ∧
    (¬ IsBusError s.params addr n.bytes →
      (∃ x, (busRead s addr n).answer = some (.data x)) ∧ (busWrite s addr n v).answer = some .done)

/-- 20_memory.md R95: the writes while busy, by the rule's pseudocode. -/
def Obligations.WritesWhileBusy : Prop :=
  ∀ (s : State) (addr : Word) (n : Width) (v : Word), s.params.Legal → s.busy = true →
    ¬ IsBusError s.params addr n.bytes →
    (addr.toNat = 0x004 → busWrite s addr n v = { s with irqEn := v.getLsbD 0, answer := some .done }) ∧
    (addr.toNat = 0x008 → busWrite s addr n v = { s with
      done := if v.getLsbD 2 then false else s.done,
      ovr := if v.getLsbD 3 then false else s.ovr, answer := some .done }) ∧
    (addr.toNat ∈ [0x000, 0x018, 0x01C, 0x028, 0x02C, 0x030, 0x034, 0x038, 0x03C] →
      busWrite s addr n v = { s with answer := some .done }) ∧
    (addr.toNat ∉ [0x004, 0x008, 0x000, 0x018, 0x01C, 0x028, 0x02C, 0x030, 0x034, 0x038, 0x03C] →
      busWrite s addr n v = { s with ovr := true, answer := some .done })

/-- 20_memory.md R93: a read changes nothing of the block (the model's answer and its count of free bytes apart,
log entries 4, 8), so,
but for the free bytes of R96, a second read answers the same; and a second equal write anywhere but at CMD and STATUS
changes nothing. -/
def Obligations.ReadsHaveNoSideEffects : Prop :=
  (∀ (s : State) (addr : Word) (n : Width), ∃ a d, busRead s addr n = { s with answer := some a, draws := d }) ∧
  (∀ (s : State) (addr : Word) (n : Width), (s.busy = false ∨ addr.toNat < 0x80000000) →
    busRead (busRead s addr n) addr n = busRead s addr n) ∧
  (∀ (s : State) (addr : Word) (n : Width) (v : Word), s.Inv → addr.toNat ≠ 0x008 → addr.toNat ≠ 0x00C →
    busWrite (busWrite s addr n v) addr n v = busWrite s addr n v)

/-- 20_memory.md R81, R86: an idle aligned write inside the element window stores byte i of its value at address a + i
and leaves every other byte and everything else; a read in any phase gives the bytes in the same order. -/
def Obligations.ElementWindow : Prop :=
  ∀ (s : State) (n : Width) (i : Nat) (v : Word), s.params.Legal → i % n.bytes = 0 →
    i + n.bytes ≤ s.params.maxElemBytes →
    (s.phase = .idle → ∃ t, busWrite s (BitVec.ofNat 32 (0x10000000 + i)) n v = t ∧
      t = { s with elem := t.elem, answer := some .done } ∧
      (∀ b, b < n.bytes → t.elemByte (i + b) = v.extractLsb' (8 * b) 8) ∧
      (∀ j, (j < i ∨ i + n.bytes ≤ j) → t.elemByte j = s.elemByte j)) ∧
    (∃ x, busRead s (BitVec.ofNat 32 (0x10000000 + i)) n = { s with answer := some (.data x) } ∧
      x.toNat < 2 ^ (8 * n.bytes) ∧ ∀ b, b < n.bytes → x.extractLsb' (8 * b) 8 = s.elemByte (i + b))

/-- 20_memory.md R82: a 32-bit write of word w to element offset 4b makes block b of the element equal w, and byte
Elem[4b] is bits 7:0 of block b, Elem[4b+3] its bits 31:24. -/
def Obligations.WordWriteIsTheHashBlock : Prop :=
  ∀ (s : State) (b : Nat), s.params.Legal → 4 * b + 4 ≤ s.elemLen.toNat →
    (blk s.element b).extractLsb' 0 8 = s.elemByte (4 * b) ∧
    (blk s.element b).extractLsb' 24 8 = s.elemByte (4 * b + 3) ∧
    ∀ w : Word, s.phase = .idle → 4 * b + 4 ≤ s.params.maxElemBytes →
      blk (busWrite s (BitVec.ofNat 32 (0x10000000 + 4 * b)) .word w).element b = w

/-- 20_memory.md R87, R88: the bit-array window while idle, byte by byte: the active filter is read and written, every
other byte reads 0 and ignores writes. -/
def Obligations.BitArrayWindow : Prop :=
  ∀ (s : State) (n : Width) (i : Nat) (v : Word), s.params.Legal → s.phase = .idle → i % n.bytes = 0 →
    i + n.bytes ≤ s.params.maxBitsetBytes →
    (∃ x, busRead s (BitVec.ofNat 32 (0x80000000 + i)) n = { s with answer := some (.data x) } ∧
      x.toNat < 2 ^ (8 * n.bytes) ∧ ∀ b, b < n.bytes →
        (s.inited = true ∧ i + b < s.size.toNat → x.extractLsb' (8 * b) 8 = s.bitsByte (i + b)) ∧
        (¬ (s.inited = true ∧ i + b < s.size.toNat) → x.extractLsb' (8 * b) 8 = 0)) ∧
    (∃ t, busWrite s (BitVec.ofNat 32 (0x80000000 + i)) n v = t ∧
      t = { s with bits := t.bits, answer := some .done } ∧
      (∀ b, b < n.bytes →
        (s.inited = true ∧ i + b < s.size.toNat → t.bitsByte (i + b) = v.extractLsb' (8 * b) 8) ∧
        (¬ (s.inited = true ∧ i + b < s.size.toNat) → t.bitsByte (i + b) = s.bitsByte (i + b))) ∧
      (∀ j, (j < i ∨ i + n.bytes ≤ j) → t.bitsByte j = s.bitsByte j))

/-- 20_memory.md R96; log entry 8 (the free bytes are the model's form of "unspecified"): a bit-array window read while
busy answers free bytes, the next one draws others, and the block does not change. -/
def Obligations.BusyBitArrayReadsAreFree : Prop :=
  ∀ (s : State) (n : Width) (i : Nat), s.params.Legal → s.busy = true → i % n.bytes = 0 →
    i + n.bytes ≤ s.params.maxBitsetBytes →
    ∃ x, busRead s (BitVec.ofNat 32 (0x80000000 + i)) n =
        { s with answer := some (.data x), draws := s.draws + 1 } ∧
      ∀ b, b < n.bytes → x.extractLsb' (8 * b) 8 = Config.busyByte s.draws (i + b)

/-! ### Reset -/

/-- 70_reset_and_hazards.md R260: every reset value, for every choice of the parameters and at every reset; log entries
6, 7 for the free bytes of the RAMs. -/
def Obligations.ResetValues : Prop :=
  (∀ (p : Params) (script : List HostOp) (schedule : List Mover) (epoch draws : Nat), p.Legal →
    ∃ s, State.afterReset p script schedule epoch draws = s ∧ s.params = p ∧
      s.irqEn = false ∧ s.busy = false ∧ s.inited = false ∧ s.done = false ∧ s.ovr = false ∧ s.err = .ok ∧
      s.cfgSize = 0 ∧ s.cfgK = 5 ∧ s.size = 0 ∧ s.k = 0 ∧ s.seed = 0 ∧ s.elemLen = 0 ∧ s.hashOut = 0 ∧
      s.h1 = 0 ∧ s.h2 = 0 ∧ s.member = false ∧ s.phase = .idle ∧ s.irq = false ∧
      (∀ j, s.bitsByte j = Config.bitsByte epoch j) ∧ (∀ i, s.elemByte i = Config.elemByte epoch i) ∧
      s.readReg .id = 0x424C4631 ∧ (s.readReg .maxSize).toNat = p.maxBitsetBytes ∧
      (s.readReg .maxElem).toNat = p.maxElemBytes) ∧
  State.reset = State.afterReset State.reset.params [] [] 0 0

/-- 70_reset_and_hazards.md R262: a reset step, from every state: the reset values at once, the command in flight
abandoned, DONE not set and irq low, whatever else would have been next. The model's own fields: log entries 1, 4, 6, 8. -/
def Obligations.ResetStep : Prop :=
  ∀ (s : State) (rest : List Mover), s.schedule = .reset :: rest → ∃ t, step s = .next t ∧
    t = State.afterReset s.params s.script rest (s.epoch + 1) s.draws ∧ t.done = false ∧ t.irq = false ∧
    t.phase = .idle

/-- 70_reset_and_hazards.md R263: after reset the block is idle and unconfigured: STATUS is 0, INSERT and CONTAINS
complete with USE_BEFORE_INIT, HASH and DERIVE work on whatever the element buffer holds, and the block runs nothing
until the host writes CMD: the engine has no step while the phase is idle, and only a CMD write ends that. -/
def Obligations.AfterReset : Prop :=
  (∀ (p : Params) (script : List HostOp) (schedule : List Mover) (epoch draws : Nat), p.Legal →
    ∃ s, State.afterReset p script schedule epoch draws = s ∧ s.phase = .idle ∧ s.statusWord = 0x00000000 ∧
      (∃ t, exec .insert s = .next t ∧ t.err = .useBeforeInit) ∧
      (∃ t, exec .contains s = .next t ∧ t.err = .useBeforeInit) ∧
      (∀ (elem : Memory) (n : Word), n.toNat ≤ p.maxElemBytes → ∃ u, { s with elem := elem, elemLen := n } = u ∧
        (∃ t, exec .hash u = .next t ∧ t.err = .ok ∧ t.hashOut = hash32 u.element u.seed) ∧
        (∃ t, exec .derive u = .next t ∧ t.err = .ok ∧ t.h1 = hash32 u.element 0))) ∧
  (∀ s t : State, s.phase = .idle → step s = .next t →
    (∀ w, s.nextMove ≠ .engine w) ∧
    (t.phase = .idle ∨ ∃ addr w, s.nextMove = .host (.access (.write addr .word w)) ∧ addr.toNat = 0x00C))

/-! ### Whole-machine statements -/

/-- The invariant (00_scope.md R14, R15; 10_state.md R38, R39, R48, R50; 60_exceptions.md R230, R232; canonical
memories, log entries 6, 7) holds right after reset, for all legal parameters. -/
def Obligations.ResetMeetsTheInvariant : Prop :=
  State.reset.Inv ∧ ∀ (p : Params) (script : List HostOp) (schedule : List Mover) (epoch draws : Nat), p.Legal →
    (State.afterReset p script schedule epoch draws).Inv

/-- Every step keeps the invariant: STATUS.INIT = 1 implies 1 <= SIZE <= MAX_BITSET_BYTES and K >= 1, STATUS.INIT = 0
implies SIZE = 0 and K = 0 (10_state.md R38, R39), a command in flight has DONE = 0, and the two memories keep their
canonical form and their bounds. -/
def Obligations.EveryStepKeepsTheInvariant : Prop :=
  ∀ s t : State, s.Inv → step s = .next t → t.Inv

/-- 70_reset_and_hazards.md R261, 20_memory.md R88: bit-array bytes outside the active filter never reach an output. Two
states that agree on everything but such bytes step to two such states again, with the same answer, the same registers
and the same interrupt. -/
def Obligations.HiddenBitArrayBytesNeverShow : Prop :=
  ∀ s t s' : State, s.Inv → t.Inv → SameVisible s t → step s = .next s' →
    ∃ t', step t = .next t' ∧ SameVisible s' t' ∧ t'.answer = s'.answer ∧ t'.irq = s'.irq ∧
      ∀ r : Reg, t'.readReg r = s'.readReg r

/-- 30_encoding.md R131, 70_reset_and_hazards.md R275 (the schedule is the model's form of "any number of host steps",
log entries 1, 2): however many host steps come first, `wait` ends once the engine has moved. -/
def Obligations.WaitEnds : Prop :=
  ∀ (s : State) (w : Word) (n : Nat) (rest : List HostOp), s.phase = .busy w → s.script = .wait :: rest →
    s.schedule = List.replicate n .host →
    ∃ t, Host.Core.run Sys2Proof.core (n + 2) s = .next t ∧ t.script = rest ∧ t.phase = .idle ∧ t.done = true

/-- 30_encoding.md R131: the pseudo-instruction `elem`, run on an idle block, makes the element exactly its bytes. How
the host's operations become steps: log entries 1, 2. -/
def Obligations.ElemPseudoInstruction : Prop :=
  ∀ (s : State) (bytes : List Byte) (rest : List HostOp), s.params.Legal → bytes.length ≤ s.params.maxElemBytes →
    s.phase = .idle → s.schedule = [] → s.script = Line.expand (.elem bytes) ++ rest →
    ∃ t, Host.Core.run Sys2Proof.core (bytes.length + 1) s = .next t ∧ t.element = bytes ∧ t.script = rest ∧
      t = { s with elem := t.elem, elemLen := BitVec.ofNat 32 bytes.length, script := rest, answer := some .done }
end

