-- ==== Sys2Proof/Laws/Memory.lean ====
section
/-! SUPPORT. The laws of a RAM array: what a read gives after a write or a clear, and that both keep the canonical
form. -/

namespace Sys2Proof.Machine

theorem lookupCell_insertCell (cells : List Host.Cell) (a b : Nat) (v : Byte) :
    lookupCell (insertCell cells a v) b = if a = b then some v else lookupCell cells b := by
  induction cells with
  | nil => simp [insertCell, lookupCell]
  | cons c rest ih =>
    by_cases hlt : a < c.1
    · simp [insertCell, hlt, lookupCell]
    · by_cases heq : a = c.1
      · subst heq; by_cases hb : c.1 = b <;> simp [insertCell, lookupCell, hb]
      · by_cases hb : c.1 = b
        · subst hb
          simp [insertCell, lookupCell, hlt, heq]
        · simp [insertCell, lookupCell, hlt, heq, hb, ih]

theorem lookupCell_filter (p : Nat → Bool) (cells : List Host.Cell) (b : Nat) :
    lookupCell (cells.filter fun c => p c.1) b = if p b then lookupCell cells b else none := by
  induction cells with
  | nil => simp [lookupCell]
  | cons c rest ih =>
    by_cases hc : c.1 = b
    · subst hc
      cases hp : p c.1 <;> simp [hp, lookupCell, ih]
    · cases hp : p c.1 <;> simp [hp, lookupCell, hc, ih]

theorem lookupCell_eraseCell (cells : List Host.Cell) (a b : Nat) :
    lookupCell (eraseCell cells a) b = if a = b then none else lookupCell cells b := by
  have h := lookupCell_filter (fun x => decide (x ≠ a)) cells b
  by_cases hab : a = b
  · subst hab; simpa [eraseCell] using h
  · have : b ≠ a := fun e => hab e.symm
    simpa [eraseCell, hab, this] using h

@[simp] theorem Memory.write_cleared (m : Memory) (a : Nat) (v : Byte) : (m.write a v).cleared = m.cleared := rfl

@[simp] theorem Memory.clear_cleared (m : Memory) (n : Nat) : (m.clear n).cleared = max m.cleared n := rfl

@[simp] theorem Memory.write_unlisted (m : Memory) (a b : Nat) (v : Byte) :
    (m.write a v).unlisted b = m.unlisted b := rfl

theorem Memory.get?_eq (m : Memory) (a : Nat) : m.get? a = (lookupCell m.cells a).or (m.unlisted a) := by
  unfold Memory.get?
  cases lookupCell m.cells a <;> rfl

/-- The listed byte after a write: none where the value is what the unlisted address holds. -/
theorem Memory.lookupCell_write (m : Memory) (a b : Nat) (v : Byte) :
    lookupCell (m.write a v).cells b =
      if a = b then (if m.unlisted a = some v then none else some v) else lookupCell m.cells b := by
  unfold Memory.write
  by_cases hu : m.unlisted a = some v
  · simp only [hu, if_true, lookupCell_eraseCell]
  · simp only [hu, if_false, lookupCell_insertCell]

/-- A read after a write: the value written at its address, the old value elsewhere. -/
theorem Memory.get?_write (m : Memory) (a b : Nat) (v : Byte) :
    (m.write a v).get? b = if a = b then some v else m.get? b := by
  rw [Memory.get?_eq, Memory.get?_eq, Memory.lookupCell_write, Memory.write_unlisted]
  by_cases hab : a = b
  · subst hab
    by_cases hu : m.unlisted a = some v <;> simp [hu]
  · simp [hab]

/-- A read after clearing the first n bytes. -/
theorem Memory.get?_clear (m : Memory) (n b : Nat) :
    (m.clear n).get? b = if b < n then some 0 else m.get? b := by
  have h := lookupCell_filter (fun x => decide (n ≤ x)) m.cells b
  by_cases hb : b < n
  · have : ¬ n ≤ b := by omega
    simp [Memory.get?, Memory.clear, h, hb, this, Memory.unlisted]
  · have hn : n ≤ b := by omega
    simp [Memory.get?, Memory.clear, h, hb, hn, Memory.unlisted]

theorem mem_insertCell {cells : List Host.Cell} {a : Nat} {v : Byte} {c : Host.Cell}
    (h : c ∈ insertCell cells a v) : c = (a, v) ∨ c ∈ cells := by
  induction cells with
  | nil => simpa [insertCell] using h
  | cons d rest ih =>
    unfold insertCell at h
    split at h
    · simpa using h
    · split at h
      · simp only [List.mem_cons] at h ⊢
        tauto
      · simp only [List.mem_cons] at h ⊢
        rcases h with h | h
        · exact .inr (.inl h)
        · rcases ih h with h | h <;> tauto

theorem insertCell_sorted {cells : List Host.Cell} (a : Nat) (v : Byte)
    (h : cells.Pairwise fun c d => c.1 < d.1) : (insertCell cells a v).Pairwise fun c d => c.1 < d.1 := by
  induction cells with
  | nil => simp [insertCell]
  | cons d rest ih =>
    rw [List.pairwise_cons] at h
    unfold insertCell
    split
    · rename_i hlt
      refine List.pairwise_cons.2 ⟨fun c hc => ?_, List.pairwise_cons.2 h⟩
      rcases List.mem_cons.1 hc with rfl | hc
      · exact hlt
      · exact Nat.lt_trans hlt (h.1 c hc)
    · split
      · rename_i heq
        exact List.pairwise_cons.2 ⟨fun c hc => by rw [heq]; exact h.1 c hc, h.2⟩
      · refine List.pairwise_cons.2 ⟨fun c hc => ?_, ih h.2⟩
        rcases mem_insertCell hc with rfl | hc
        · simp only; omega
        · exact h.1 c hc

/-- Every write keeps the canonical form. -/
theorem Memory.wf_write {m : Memory} (a : Nat) (v : Byte) (h : m.wf) : (m.write a v).wf := by
  unfold Memory.wf Memory.write at *
  split
  · exact ⟨h.1.filter _, fun c hc => h.2 c (List.mem_filter.1 hc).1⟩
  · rename_i hu
    refine ⟨insertCell_sorted a v h.1, fun c hc => ?_⟩
    rcases mem_insertCell hc with rfl | hc
    · exact hu
    · exact h.2 c hc

/-- Clearing a prefix keeps the canonical form. -/
theorem Memory.wf_clear {m : Memory} (n : Nat) (h : m.wf) : (m.clear n).wf := by
  refine ⟨h.1.filter _, fun c hc => ?_⟩
  obtain ⟨hc, hn⟩ := List.mem_filter.1 hc
  have hold := h.2 c hc
  simp only [decide_eq_true_eq] at hn
  simp only [Memory.unlisted, Memory.clear] at *
  by_cases hlt : c.1 < m.cleared
  · simpa [hlt] using hold
  · have : ¬ c.1 < max m.cleared n := by omega
    simp [this]

/-- A write below `n` stays below `n`. -/
theorem Memory.within_write {m : Memory} {n a : Nat} (v : Byte) (ha : a < n) (h : m.within n) :
    (m.write a v).within n := by
  intro c hc
  unfold Memory.write at hc
  simp only at hc
  split at hc
  · exact h c (List.mem_filter.1 hc).1
  · rcases mem_insertCell hc with rfl | hc
    · exact ha
    · exact h c hc

theorem Memory.within_clear {m : Memory} {n k : Nat} (h : m.within n) : (m.clear k).within n :=
  fun c hc => h c (List.mem_filter.1 hc).1

theorem Memory.within_mono {m : Memory} {n k : Nat} (h : m.within n) (hnk : n ≤ k) : m.within k :=
  fun c hc => Nat.lt_of_lt_of_le (h c hc) hnk

theorem lookupCell_of_mem {cells : List Host.Cell} {c : Host.Cell}
    (hs : cells.Pairwise fun c d => c.1 < d.1) (hc : c ∈ cells) : lookupCell cells c.1 = some c.2 := by
  induction cells with
  | nil => simp at hc
  | cons d rest ih =>
    rw [List.pairwise_cons] at hs
    rcases List.mem_cons.1 hc with rfl | hc
    · simp [lookupCell]
    · have : d.1 ≠ c.1 := Nat.ne_of_lt (hs.1 c hc)
      simp [lookupCell, this, ih hs.2 hc]

theorem mem_of_lookupCell {cells : List Host.Cell} {a : Nat} {v : Byte} (h : lookupCell cells a = some v) :
    (a, v) ∈ cells := by
  induction cells with
  | nil => simp [lookupCell] at h
  | cons d rest ih =>
    unfold lookupCell at h
    split at h
    · rename_i hd
      simp only [Option.some.injEq] at h
      subst hd; subst h; simp
    · exact List.mem_cons_of_mem _ (ih h)

theorem sorted_cells_ext {xs ys : List Host.Cell} (hx : xs.Pairwise fun c d => c.1 < d.1)
    (hy : ys.Pairwise fun c d => c.1 < d.1) (h : ∀ c, c ∈ xs ↔ c ∈ ys) : xs = ys := by
  have irr : ∀ {l : List Host.Cell}, (l.Pairwise fun c d => c.1 < d.1) → l.Nodup :=
    fun hl => hl.imp fun hlt he => by rw [he] at hlt; exact Nat.lt_irrefl _ hlt
  refine List.Perm.eq_of_pairwise (le := fun c d => c.1 < d.1) ?_ hx hy ((List.perm_ext_iff_of_nodup (irr hx) (irr hy)).2 h)
  intro a b _ _ hab hba
  omega

/-- Equal arrays are equal data: two canonical arrays with the same cleared prefix and the same bytes are equal. -/
theorem Memory.ext_of_wf {m n : Memory} (hm : m.wf) (hn : n.wf) (hc : m.cleared = n.cleared)
    (h : ∀ a, m.get? a = n.get? a) : m = n := by
  have hu : ∀ a, m.unlisted a = n.unlisted a := fun a => by simp [Memory.unlisted, hc]
  have half : ∀ {m n : Memory}, m.wf → (∀ a, m.unlisted a = n.unlisted a) → (∀ a, m.get? a = n.get? a) →
      ∀ c, c ∈ m.cells → c ∈ n.cells := by
    intro m n hm hu h c hcm
    have hl := lookupCell_of_mem hm.1 hcm
    have hg := h c.1
    simp only [Memory.get?, hl] at hg
    cases hn : lookupCell n.cells c.1 with
    | some v =>
      rw [hn] at hg
      simp only [Option.some.injEq] at hg
      have := mem_of_lookupCell hn
      rwa [← hg] at this
    | none =>
      rw [hn] at hg
      exact absurd ((hu c.1).trans hg.symm) (hm.2 c hcm)
  have hcells : m.cells = n.cells := sorted_cells_ext hm.1 hn.1 fun c =>
    ⟨half hm hu h c, half hn (fun a => (hu a).symm) (fun a => (h a).symm) c⟩
  cases m; cases n; simp_all

@[simp] theorem Memory.wf_unwritten : Memory.unwritten.wf := by decide

@[simp] theorem Memory.within_unwritten (n : Nat) : Memory.unwritten.within n := by
  intro c hc; simp [Memory.unwritten] at hc

end Sys2Proof.Machine
end

