-- ==== Sys2Proof/Laws/State.lean ====
section
/-! SUPPORT. One lemma per field of State for each named update of the state, true by rfl, so that no later proof
unfolds a record update; and what the functions of the state read after each update. -/

namespace Sys2Proof.Machine

@[simp] theorem State.complete_params (s : State) (e : ErrorCode) : (s.complete e).params = s.params := rfl
@[simp] theorem State.complete_irqEn (s : State) (e : ErrorCode) : (s.complete e).irqEn = s.irqEn := rfl
@[simp] theorem State.complete_phase (s : State) (e : ErrorCode) : (s.complete e).phase = .idle := rfl
@[simp] theorem State.complete_inited (s : State) (e : ErrorCode) : (s.complete e).inited = s.inited := rfl
@[simp] theorem State.complete_done (s : State) (e : ErrorCode) : (s.complete e).done = true := rfl
@[simp] theorem State.complete_ovr (s : State) (e : ErrorCode) : (s.complete e).ovr = s.ovr := rfl
@[simp] theorem State.complete_err (s : State) (e : ErrorCode) : (s.complete e).err = e := rfl
@[simp] theorem State.complete_cfgSize (s : State) (e : ErrorCode) : (s.complete e).cfgSize = s.cfgSize := rfl
@[simp] theorem State.complete_cfgK (s : State) (e : ErrorCode) : (s.complete e).cfgK = s.cfgK := rfl
@[simp] theorem State.complete_size (s : State) (e : ErrorCode) : (s.complete e).size = s.size := rfl
@[simp] theorem State.complete_k (s : State) (e : ErrorCode) : (s.complete e).k = s.k := rfl
@[simp] theorem State.complete_seed (s : State) (e : ErrorCode) : (s.complete e).seed = s.seed := rfl
@[simp] theorem State.complete_elemLen (s : State) (e : ErrorCode) : (s.complete e).elemLen = s.elemLen := rfl
@[simp] theorem State.complete_hashOut (s : State) (e : ErrorCode) : (s.complete e).hashOut = s.hashOut := rfl
@[simp] theorem State.complete_h1 (s : State) (e : ErrorCode) : (s.complete e).h1 = s.h1 := rfl
@[simp] theorem State.complete_h2 (s : State) (e : ErrorCode) : (s.complete e).h2 = s.h2 := rfl
@[simp] theorem State.complete_member (s : State) (e : ErrorCode) : (s.complete e).member = s.member := rfl
@[simp] theorem State.complete_bits (s : State) (e : ErrorCode) : (s.complete e).bits = s.bits := rfl
@[simp] theorem State.complete_elem (s : State) (e : ErrorCode) : (s.complete e).elem = s.elem := rfl
@[simp] theorem State.complete_answer (s : State) (e : ErrorCode) : (s.complete e).answer = s.answer := rfl
@[simp] theorem State.complete_script (s : State) (e : ErrorCode) : (s.complete e).script = s.script := rfl
@[simp] theorem State.complete_schedule (s : State) (e : ErrorCode) : (s.complete e).schedule = s.schedule := rfl
@[simp] theorem State.complete_epoch (s : State) (e : ErrorCode) : (s.complete e).epoch = s.epoch := rfl
@[simp] theorem State.complete_draws (s : State) (e : ErrorCode) : (s.complete e).draws = s.draws := rfl

@[simp] theorem State.accept_params (s : State) (w : Word) : (s.accept w).params = s.params := rfl
@[simp] theorem State.accept_irqEn (s : State) (w : Word) : (s.accept w).irqEn = s.irqEn := rfl
@[simp] theorem State.accept_phase (s : State) (w : Word) : (s.accept w).phase = .busy w := rfl
@[simp] theorem State.accept_inited (s : State) (w : Word) : (s.accept w).inited = s.inited := rfl
@[simp] theorem State.accept_done (s : State) (w : Word) : (s.accept w).done = false := rfl
@[simp] theorem State.accept_ovr (s : State) (w : Word) : (s.accept w).ovr = s.ovr := rfl
@[simp] theorem State.accept_err (s : State) (w : Word) : (s.accept w).err = s.err := rfl
@[simp] theorem State.accept_cfgSize (s : State) (w : Word) : (s.accept w).cfgSize = s.cfgSize := rfl
@[simp] theorem State.accept_cfgK (s : State) (w : Word) : (s.accept w).cfgK = s.cfgK := rfl
@[simp] theorem State.accept_size (s : State) (w : Word) : (s.accept w).size = s.size := rfl
@[simp] theorem State.accept_k (s : State) (w : Word) : (s.accept w).k = s.k := rfl
@[simp] theorem State.accept_seed (s : State) (w : Word) : (s.accept w).seed = s.seed := rfl
@[simp] theorem State.accept_elemLen (s : State) (w : Word) : (s.accept w).elemLen = s.elemLen := rfl
@[simp] theorem State.accept_hashOut (s : State) (w : Word) : (s.accept w).hashOut = s.hashOut := rfl
@[simp] theorem State.accept_h1 (s : State) (w : Word) : (s.accept w).h1 = s.h1 := rfl
@[simp] theorem State.accept_h2 (s : State) (w : Word) : (s.accept w).h2 = s.h2 := rfl
@[simp] theorem State.accept_member (s : State) (w : Word) : (s.accept w).member = s.member := rfl
@[simp] theorem State.accept_bits (s : State) (w : Word) : (s.accept w).bits = s.bits := rfl
@[simp] theorem State.accept_elem (s : State) (w : Word) : (s.accept w).elem = s.elem := rfl
@[simp] theorem State.accept_answer (s : State) (w : Word) : (s.accept w).answer = s.answer := rfl
@[simp] theorem State.accept_script (s : State) (w : Word) : (s.accept w).script = s.script := rfl
@[simp] theorem State.accept_schedule (s : State) (w : Word) : (s.accept w).schedule = s.schedule := rfl
@[simp] theorem State.accept_epoch (s : State) (w : Word) : (s.accept w).epoch = s.epoch := rfl
@[simp] theorem State.accept_draws (s : State) (w : Word) : (s.accept w).draws = s.draws := rfl

@[simp] theorem State.dropWrite_params (s : State) : (s.dropWrite).params = s.params := rfl
@[simp] theorem State.dropWrite_irqEn (s : State) : (s.dropWrite).irqEn = s.irqEn := rfl
@[simp] theorem State.dropWrite_phase (s : State) : (s.dropWrite).phase = s.phase := rfl
@[simp] theorem State.dropWrite_inited (s : State) : (s.dropWrite).inited = s.inited := rfl
@[simp] theorem State.dropWrite_done (s : State) : (s.dropWrite).done = s.done := rfl
@[simp] theorem State.dropWrite_ovr (s : State) : (s.dropWrite).ovr = true := rfl
@[simp] theorem State.dropWrite_err (s : State) : (s.dropWrite).err = s.err := rfl
@[simp] theorem State.dropWrite_cfgSize (s : State) : (s.dropWrite).cfgSize = s.cfgSize := rfl
@[simp] theorem State.dropWrite_cfgK (s : State) : (s.dropWrite).cfgK = s.cfgK := rfl
@[simp] theorem State.dropWrite_size (s : State) : (s.dropWrite).size = s.size := rfl
@[simp] theorem State.dropWrite_k (s : State) : (s.dropWrite).k = s.k := rfl
@[simp] theorem State.dropWrite_seed (s : State) : (s.dropWrite).seed = s.seed := rfl
@[simp] theorem State.dropWrite_elemLen (s : State) : (s.dropWrite).elemLen = s.elemLen := rfl
@[simp] theorem State.dropWrite_hashOut (s : State) : (s.dropWrite).hashOut = s.hashOut := rfl
@[simp] theorem State.dropWrite_h1 (s : State) : (s.dropWrite).h1 = s.h1 := rfl
@[simp] theorem State.dropWrite_h2 (s : State) : (s.dropWrite).h2 = s.h2 := rfl
@[simp] theorem State.dropWrite_member (s : State) : (s.dropWrite).member = s.member := rfl
@[simp] theorem State.dropWrite_bits (s : State) : (s.dropWrite).bits = s.bits := rfl
@[simp] theorem State.dropWrite_elem (s : State) : (s.dropWrite).elem = s.elem := rfl
@[simp] theorem State.dropWrite_answer (s : State) : (s.dropWrite).answer = s.answer := rfl
@[simp] theorem State.dropWrite_script (s : State) : (s.dropWrite).script = s.script := rfl
@[simp] theorem State.dropWrite_schedule (s : State) : (s.dropWrite).schedule = s.schedule := rfl
@[simp] theorem State.dropWrite_epoch (s : State) : (s.dropWrite).epoch = s.epoch := rfl
@[simp] theorem State.dropWrite_draws (s : State) : (s.dropWrite).draws = s.draws := rfl

@[simp] theorem State.answered_params (s : State) (a : Answer) : (s.answered a).params = s.params := rfl
@[simp] theorem State.answered_irqEn (s : State) (a : Answer) : (s.answered a).irqEn = s.irqEn := rfl
@[simp] theorem State.answered_phase (s : State) (a : Answer) : (s.answered a).phase = s.phase := rfl
@[simp] theorem State.answered_inited (s : State) (a : Answer) : (s.answered a).inited = s.inited := rfl
@[simp] theorem State.answered_done (s : State) (a : Answer) : (s.answered a).done = s.done := rfl
@[simp] theorem State.answered_ovr (s : State) (a : Answer) : (s.answered a).ovr = s.ovr := rfl
@[simp] theorem State.answered_err (s : State) (a : Answer) : (s.answered a).err = s.err := rfl
@[simp] theorem State.answered_cfgSize (s : State) (a : Answer) : (s.answered a).cfgSize = s.cfgSize := rfl
@[simp] theorem State.answered_cfgK (s : State) (a : Answer) : (s.answered a).cfgK = s.cfgK := rfl
@[simp] theorem State.answered_size (s : State) (a : Answer) : (s.answered a).size = s.size := rfl
@[simp] theorem State.answered_k (s : State) (a : Answer) : (s.answered a).k = s.k := rfl
@[simp] theorem State.answered_seed (s : State) (a : Answer) : (s.answered a).seed = s.seed := rfl
@[simp] theorem State.answered_elemLen (s : State) (a : Answer) : (s.answered a).elemLen = s.elemLen := rfl
@[simp] theorem State.answered_hashOut (s : State) (a : Answer) : (s.answered a).hashOut = s.hashOut := rfl
@[simp] theorem State.answered_h1 (s : State) (a : Answer) : (s.answered a).h1 = s.h1 := rfl
@[simp] theorem State.answered_h2 (s : State) (a : Answer) : (s.answered a).h2 = s.h2 := rfl
@[simp] theorem State.answered_member (s : State) (a : Answer) : (s.answered a).member = s.member := rfl
@[simp] theorem State.answered_bits (s : State) (a : Answer) : (s.answered a).bits = s.bits := rfl
@[simp] theorem State.answered_elem (s : State) (a : Answer) : (s.answered a).elem = s.elem := rfl
@[simp] theorem State.answered_answer (s : State) (a : Answer) : (s.answered a).answer = some a := rfl
@[simp] theorem State.answered_script (s : State) (a : Answer) : (s.answered a).script = s.script := rfl
@[simp] theorem State.answered_schedule (s : State) (a : Answer) : (s.answered a).schedule = s.schedule := rfl
@[simp] theorem State.answered_epoch (s : State) (a : Answer) : (s.answered a).epoch = s.epoch := rfl
@[simp] theorem State.answered_draws (s : State) (a : Answer) : (s.answered a).draws = s.draws := rfl

@[simp] theorem State.drew_params (s : State) : (s.drew).params = s.params := rfl
@[simp] theorem State.drew_irqEn (s : State) : (s.drew).irqEn = s.irqEn := rfl
@[simp] theorem State.drew_phase (s : State) : (s.drew).phase = s.phase := rfl
@[simp] theorem State.drew_inited (s : State) : (s.drew).inited = s.inited := rfl
@[simp] theorem State.drew_done (s : State) : (s.drew).done = s.done := rfl
@[simp] theorem State.drew_ovr (s : State) : (s.drew).ovr = s.ovr := rfl
@[simp] theorem State.drew_err (s : State) : (s.drew).err = s.err := rfl
@[simp] theorem State.drew_cfgSize (s : State) : (s.drew).cfgSize = s.cfgSize := rfl
@[simp] theorem State.drew_cfgK (s : State) : (s.drew).cfgK = s.cfgK := rfl
@[simp] theorem State.drew_size (s : State) : (s.drew).size = s.size := rfl
@[simp] theorem State.drew_k (s : State) : (s.drew).k = s.k := rfl
@[simp] theorem State.drew_seed (s : State) : (s.drew).seed = s.seed := rfl
@[simp] theorem State.drew_elemLen (s : State) : (s.drew).elemLen = s.elemLen := rfl
@[simp] theorem State.drew_hashOut (s : State) : (s.drew).hashOut = s.hashOut := rfl
@[simp] theorem State.drew_h1 (s : State) : (s.drew).h1 = s.h1 := rfl
@[simp] theorem State.drew_h2 (s : State) : (s.drew).h2 = s.h2 := rfl
@[simp] theorem State.drew_member (s : State) : (s.drew).member = s.member := rfl
@[simp] theorem State.drew_bits (s : State) : (s.drew).bits = s.bits := rfl
@[simp] theorem State.drew_elem (s : State) : (s.drew).elem = s.elem := rfl
@[simp] theorem State.drew_answer (s : State) : (s.drew).answer = s.answer := rfl
@[simp] theorem State.drew_script (s : State) : (s.drew).script = s.script := rfl
@[simp] theorem State.drew_schedule (s : State) : (s.drew).schedule = s.schedule := rfl
@[simp] theorem State.drew_epoch (s : State) : (s.drew).epoch = s.epoch := rfl
@[simp] theorem State.drew_draws (s : State) : (s.drew).draws = s.draws + 1 := rfl

@[simp] theorem State.writeStatus_params (s : State) (w : Word) : (s.writeStatus w).params = s.params := rfl
@[simp] theorem State.writeStatus_irqEn (s : State) (w : Word) : (s.writeStatus w).irqEn = s.irqEn := rfl
@[simp] theorem State.writeStatus_phase (s : State) (w : Word) : (s.writeStatus w).phase = s.phase := rfl
@[simp] theorem State.writeStatus_inited (s : State) (w : Word) : (s.writeStatus w).inited = s.inited := rfl
@[simp] theorem State.writeStatus_done (s : State) (w : Word) : (s.writeStatus w).done = (s.done && !w.getLsbD 2) := rfl
@[simp] theorem State.writeStatus_ovr (s : State) (w : Word) : (s.writeStatus w).ovr = (s.ovr && !w.getLsbD 3) := rfl
@[simp] theorem State.writeStatus_err (s : State) (w : Word) : (s.writeStatus w).err = s.err := rfl
@[simp] theorem State.writeStatus_cfgSize (s : State) (w : Word) : (s.writeStatus w).cfgSize = s.cfgSize := rfl
@[simp] theorem State.writeStatus_cfgK (s : State) (w : Word) : (s.writeStatus w).cfgK = s.cfgK := rfl
@[simp] theorem State.writeStatus_size (s : State) (w : Word) : (s.writeStatus w).size = s.size := rfl
@[simp] theorem State.writeStatus_k (s : State) (w : Word) : (s.writeStatus w).k = s.k := rfl
@[simp] theorem State.writeStatus_seed (s : State) (w : Word) : (s.writeStatus w).seed = s.seed := rfl
@[simp] theorem State.writeStatus_elemLen (s : State) (w : Word) : (s.writeStatus w).elemLen = s.elemLen := rfl
@[simp] theorem State.writeStatus_hashOut (s : State) (w : Word) : (s.writeStatus w).hashOut = s.hashOut := rfl
@[simp] theorem State.writeStatus_h1 (s : State) (w : Word) : (s.writeStatus w).h1 = s.h1 := rfl
@[simp] theorem State.writeStatus_h2 (s : State) (w : Word) : (s.writeStatus w).h2 = s.h2 := rfl
@[simp] theorem State.writeStatus_member (s : State) (w : Word) : (s.writeStatus w).member = s.member := rfl
@[simp] theorem State.writeStatus_bits (s : State) (w : Word) : (s.writeStatus w).bits = s.bits := rfl
@[simp] theorem State.writeStatus_elem (s : State) (w : Word) : (s.writeStatus w).elem = s.elem := rfl
@[simp] theorem State.writeStatus_answer (s : State) (w : Word) : (s.writeStatus w).answer = s.answer := rfl
@[simp] theorem State.writeStatus_script (s : State) (w : Word) : (s.writeStatus w).script = s.script := rfl
@[simp] theorem State.writeStatus_schedule (s : State) (w : Word) : (s.writeStatus w).schedule = s.schedule := rfl
@[simp] theorem State.writeStatus_epoch (s : State) (w : Word) : (s.writeStatus w).epoch = s.epoch := rfl
@[simp] theorem State.writeStatus_draws (s : State) (w : Word) : (s.writeStatus w).draws = s.draws := rfl

@[simp] theorem State.writeCtrl_params (s : State) (w : Word) : (s.writeCtrl w).params = s.params := rfl
@[simp] theorem State.writeCtrl_irqEn (s : State) (w : Word) : (s.writeCtrl w).irqEn = w.getLsbD 0 := rfl
@[simp] theorem State.writeCtrl_phase (s : State) (w : Word) : (s.writeCtrl w).phase = s.phase := rfl
@[simp] theorem State.writeCtrl_inited (s : State) (w : Word) : (s.writeCtrl w).inited = s.inited := rfl
@[simp] theorem State.writeCtrl_done (s : State) (w : Word) : (s.writeCtrl w).done = s.done := rfl
@[simp] theorem State.writeCtrl_ovr (s : State) (w : Word) : (s.writeCtrl w).ovr = s.ovr := rfl
@[simp] theorem State.writeCtrl_err (s : State) (w : Word) : (s.writeCtrl w).err = s.err := rfl
@[simp] theorem State.writeCtrl_cfgSize (s : State) (w : Word) : (s.writeCtrl w).cfgSize = s.cfgSize := rfl
@[simp] theorem State.writeCtrl_cfgK (s : State) (w : Word) : (s.writeCtrl w).cfgK = s.cfgK := rfl
@[simp] theorem State.writeCtrl_size (s : State) (w : Word) : (s.writeCtrl w).size = s.size := rfl
@[simp] theorem State.writeCtrl_k (s : State) (w : Word) : (s.writeCtrl w).k = s.k := rfl
@[simp] theorem State.writeCtrl_seed (s : State) (w : Word) : (s.writeCtrl w).seed = s.seed := rfl
@[simp] theorem State.writeCtrl_elemLen (s : State) (w : Word) : (s.writeCtrl w).elemLen = s.elemLen := rfl
@[simp] theorem State.writeCtrl_hashOut (s : State) (w : Word) : (s.writeCtrl w).hashOut = s.hashOut := rfl
@[simp] theorem State.writeCtrl_h1 (s : State) (w : Word) : (s.writeCtrl w).h1 = s.h1 := rfl
@[simp] theorem State.writeCtrl_h2 (s : State) (w : Word) : (s.writeCtrl w).h2 = s.h2 := rfl
@[simp] theorem State.writeCtrl_member (s : State) (w : Word) : (s.writeCtrl w).member = s.member := rfl
@[simp] theorem State.writeCtrl_bits (s : State) (w : Word) : (s.writeCtrl w).bits = s.bits := rfl
@[simp] theorem State.writeCtrl_elem (s : State) (w : Word) : (s.writeCtrl w).elem = s.elem := rfl
@[simp] theorem State.writeCtrl_answer (s : State) (w : Word) : (s.writeCtrl w).answer = s.answer := rfl
@[simp] theorem State.writeCtrl_script (s : State) (w : Word) : (s.writeCtrl w).script = s.script := rfl
@[simp] theorem State.writeCtrl_schedule (s : State) (w : Word) : (s.writeCtrl w).schedule = s.schedule := rfl
@[simp] theorem State.writeCtrl_epoch (s : State) (w : Word) : (s.writeCtrl w).epoch = s.epoch := rfl
@[simp] theorem State.writeCtrl_draws (s : State) (w : Word) : (s.writeCtrl w).draws = s.draws := rfl

@[simp] theorem State.setDigests_params (s : State) : (s.setDigests).params = s.params := rfl
@[simp] theorem State.setDigests_irqEn (s : State) : (s.setDigests).irqEn = s.irqEn := rfl
@[simp] theorem State.setDigests_phase (s : State) : (s.setDigests).phase = s.phase := rfl
@[simp] theorem State.setDigests_inited (s : State) : (s.setDigests).inited = s.inited := rfl
@[simp] theorem State.setDigests_done (s : State) : (s.setDigests).done = s.done := rfl
@[simp] theorem State.setDigests_ovr (s : State) : (s.setDigests).ovr = s.ovr := rfl
@[simp] theorem State.setDigests_err (s : State) : (s.setDigests).err = s.err := rfl
@[simp] theorem State.setDigests_cfgSize (s : State) : (s.setDigests).cfgSize = s.cfgSize := rfl
@[simp] theorem State.setDigests_cfgK (s : State) : (s.setDigests).cfgK = s.cfgK := rfl
@[simp] theorem State.setDigests_size (s : State) : (s.setDigests).size = s.size := rfl
@[simp] theorem State.setDigests_k (s : State) : (s.setDigests).k = s.k := rfl
@[simp] theorem State.setDigests_seed (s : State) : (s.setDigests).seed = s.seed := rfl
@[simp] theorem State.setDigests_elemLen (s : State) : (s.setDigests).elemLen = s.elemLen := rfl
@[simp] theorem State.setDigests_hashOut (s : State) : (s.setDigests).hashOut = s.hashOut := rfl
@[simp] theorem State.setDigests_h1 (s : State) : (s.setDigests).h1 = digest1 s.element := rfl
@[simp] theorem State.setDigests_h2 (s : State) : (s.setDigests).h2 = digest2 s.element := rfl
@[simp] theorem State.setDigests_member (s : State) : (s.setDigests).member = s.member := rfl
@[simp] theorem State.setDigests_bits (s : State) : (s.setDigests).bits = s.bits := rfl
@[simp] theorem State.setDigests_elem (s : State) : (s.setDigests).elem = s.elem := rfl
@[simp] theorem State.setDigests_answer (s : State) : (s.setDigests).answer = s.answer := rfl
@[simp] theorem State.setDigests_script (s : State) : (s.setDigests).script = s.script := rfl
@[simp] theorem State.setDigests_schedule (s : State) : (s.setDigests).schedule = s.schedule := rfl
@[simp] theorem State.setDigests_epoch (s : State) : (s.setDigests).epoch = s.epoch := rfl
@[simp] theorem State.setDigests_draws (s : State) : (s.setDigests).draws = s.draws := rfl

@[simp] theorem State.advanceScript_params (s : State) : (s.advanceScript).params = s.params := rfl
@[simp] theorem State.advanceScript_irqEn (s : State) : (s.advanceScript).irqEn = s.irqEn := rfl
@[simp] theorem State.advanceScript_phase (s : State) : (s.advanceScript).phase = s.phase := rfl
@[simp] theorem State.advanceScript_inited (s : State) : (s.advanceScript).inited = s.inited := rfl
@[simp] theorem State.advanceScript_done (s : State) : (s.advanceScript).done = s.done := rfl
@[simp] theorem State.advanceScript_ovr (s : State) : (s.advanceScript).ovr = s.ovr := rfl
@[simp] theorem State.advanceScript_err (s : State) : (s.advanceScript).err = s.err := rfl
@[simp] theorem State.advanceScript_cfgSize (s : State) : (s.advanceScript).cfgSize = s.cfgSize := rfl
@[simp] theorem State.advanceScript_cfgK (s : State) : (s.advanceScript).cfgK = s.cfgK := rfl
@[simp] theorem State.advanceScript_size (s : State) : (s.advanceScript).size = s.size := rfl
@[simp] theorem State.advanceScript_k (s : State) : (s.advanceScript).k = s.k := rfl
@[simp] theorem State.advanceScript_seed (s : State) : (s.advanceScript).seed = s.seed := rfl
@[simp] theorem State.advanceScript_elemLen (s : State) : (s.advanceScript).elemLen = s.elemLen := rfl
@[simp] theorem State.advanceScript_hashOut (s : State) : (s.advanceScript).hashOut = s.hashOut := rfl
@[simp] theorem State.advanceScript_h1 (s : State) : (s.advanceScript).h1 = s.h1 := rfl
@[simp] theorem State.advanceScript_h2 (s : State) : (s.advanceScript).h2 = s.h2 := rfl
@[simp] theorem State.advanceScript_member (s : State) : (s.advanceScript).member = s.member := rfl
@[simp] theorem State.advanceScript_bits (s : State) : (s.advanceScript).bits = s.bits := rfl
@[simp] theorem State.advanceScript_elem (s : State) : (s.advanceScript).elem = s.elem := rfl
@[simp] theorem State.advanceScript_answer (s : State) : (s.advanceScript).answer = s.answer := rfl
@[simp] theorem State.advanceScript_script (s : State) : (s.advanceScript).script = s.script.tail := rfl
@[simp] theorem State.advanceScript_schedule (s : State) : (s.advanceScript).schedule = s.schedule := rfl
@[simp] theorem State.advanceScript_epoch (s : State) : (s.advanceScript).epoch = s.epoch := rfl
@[simp] theorem State.advanceScript_draws (s : State) : (s.advanceScript).draws = s.draws := rfl

@[simp] theorem State.advanceSchedule_params (s : State) : (s.advanceSchedule).params = s.params := rfl
@[simp] theorem State.advanceSchedule_irqEn (s : State) : (s.advanceSchedule).irqEn = s.irqEn := rfl
@[simp] theorem State.advanceSchedule_phase (s : State) : (s.advanceSchedule).phase = s.phase := rfl
@[simp] theorem State.advanceSchedule_inited (s : State) : (s.advanceSchedule).inited = s.inited := rfl
@[simp] theorem State.advanceSchedule_done (s : State) : (s.advanceSchedule).done = s.done := rfl
@[simp] theorem State.advanceSchedule_ovr (s : State) : (s.advanceSchedule).ovr = s.ovr := rfl
@[simp] theorem State.advanceSchedule_err (s : State) : (s.advanceSchedule).err = s.err := rfl
@[simp] theorem State.advanceSchedule_cfgSize (s : State) : (s.advanceSchedule).cfgSize = s.cfgSize := rfl
@[simp] theorem State.advanceSchedule_cfgK (s : State) : (s.advanceSchedule).cfgK = s.cfgK := rfl
@[simp] theorem State.advanceSchedule_size (s : State) : (s.advanceSchedule).size = s.size := rfl
@[simp] theorem State.advanceSchedule_k (s : State) : (s.advanceSchedule).k = s.k := rfl
@[simp] theorem State.advanceSchedule_seed (s : State) : (s.advanceSchedule).seed = s.seed := rfl
@[simp] theorem State.advanceSchedule_elemLen (s : State) : (s.advanceSchedule).elemLen = s.elemLen := rfl
@[simp] theorem State.advanceSchedule_hashOut (s : State) : (s.advanceSchedule).hashOut = s.hashOut := rfl
@[simp] theorem State.advanceSchedule_h1 (s : State) : (s.advanceSchedule).h1 = s.h1 := rfl
@[simp] theorem State.advanceSchedule_h2 (s : State) : (s.advanceSchedule).h2 = s.h2 := rfl
@[simp] theorem State.advanceSchedule_member (s : State) : (s.advanceSchedule).member = s.member := rfl
@[simp] theorem State.advanceSchedule_bits (s : State) : (s.advanceSchedule).bits = s.bits := rfl
@[simp] theorem State.advanceSchedule_elem (s : State) : (s.advanceSchedule).elem = s.elem := rfl
@[simp] theorem State.advanceSchedule_answer (s : State) : (s.advanceSchedule).answer = s.answer := rfl
@[simp] theorem State.advanceSchedule_script (s : State) : (s.advanceSchedule).script = s.script := rfl
@[simp] theorem State.advanceSchedule_schedule (s : State) : (s.advanceSchedule).schedule = s.schedule.tail := rfl
@[simp] theorem State.advanceSchedule_epoch (s : State) : (s.advanceSchedule).epoch = s.epoch := rfl
@[simp] theorem State.advanceSchedule_draws (s : State) : (s.advanceSchedule).draws = s.draws := rfl

@[simp] theorem State.resetStep_params (s : State) : (s.resetStep).params = s.params := rfl
@[simp] theorem State.resetStep_irqEn (s : State) : (s.resetStep).irqEn = false := rfl
@[simp] theorem State.resetStep_phase (s : State) : (s.resetStep).phase = .idle := rfl
@[simp] theorem State.resetStep_inited (s : State) : (s.resetStep).inited = false := rfl
@[simp] theorem State.resetStep_done (s : State) : (s.resetStep).done = false := rfl
@[simp] theorem State.resetStep_ovr (s : State) : (s.resetStep).ovr = false := rfl
@[simp] theorem State.resetStep_err (s : State) : (s.resetStep).err = .ok := rfl
@[simp] theorem State.resetStep_cfgSize (s : State) : (s.resetStep).cfgSize = 0 := rfl
@[simp] theorem State.resetStep_cfgK (s : State) : (s.resetStep).cfgK = 5 := rfl
@[simp] theorem State.resetStep_size (s : State) : (s.resetStep).size = 0 := rfl
@[simp] theorem State.resetStep_k (s : State) : (s.resetStep).k = 0 := rfl
@[simp] theorem State.resetStep_seed (s : State) : (s.resetStep).seed = 0 := rfl
@[simp] theorem State.resetStep_elemLen (s : State) : (s.resetStep).elemLen = 0 := rfl
@[simp] theorem State.resetStep_hashOut (s : State) : (s.resetStep).hashOut = 0 := rfl
@[simp] theorem State.resetStep_h1 (s : State) : (s.resetStep).h1 = 0 := rfl
@[simp] theorem State.resetStep_h2 (s : State) : (s.resetStep).h2 = 0 := rfl
@[simp] theorem State.resetStep_member (s : State) : (s.resetStep).member = false := rfl
@[simp] theorem State.resetStep_bits (s : State) : (s.resetStep).bits = Memory.unwritten := rfl
@[simp] theorem State.resetStep_elem (s : State) : (s.resetStep).elem = Memory.unwritten := rfl
@[simp] theorem State.resetStep_answer (s : State) : (s.resetStep).answer = none := rfl
@[simp] theorem State.resetStep_script (s : State) : (s.resetStep).script = s.script := rfl
@[simp] theorem State.resetStep_schedule (s : State) : (s.resetStep).schedule = s.schedule := rfl
@[simp] theorem State.resetStep_epoch (s : State) : (s.resetStep).epoch = s.epoch + 1 := rfl
@[simp] theorem State.resetStep_draws (s : State) : (s.resetStep).draws = s.draws := rfl

@[simp] theorem State.complete_elemByte (s : State) (e : ErrorCode) (i : Nat) : (s.complete e).elemByte i = s.elemByte i := rfl
@[simp] theorem State.complete_bitsByte (s : State) (e : ErrorCode) (j : Nat) : (s.complete e).bitsByte j = s.bitsByte j := rfl
@[simp] theorem State.complete_bitAt (s : State) (e : ErrorCode) (p : Nat) : (s.complete e).bitAt p = s.bitAt p := rfl
@[simp] theorem State.complete_element (s : State) (e : ErrorCode) : (s.complete e).element = s.element := rfl
@[simp] theorem State.complete_inFilter (s : State) (e : ErrorCode) (j : Nat) : (s.complete e).inFilter j = s.inFilter j := rfl
@[simp] theorem State.complete_windowByte (s : State) (e : ErrorCode) (j : Nat) : (s.complete e).windowByte j = s.windowByte j := rfl
@[simp] theorem State.complete_elemTooLong (s : State) (e : ErrorCode) : (s.complete e).elemTooLong = s.elemTooLong := rfl
@[simp] theorem State.complete_badConfig (s : State) (e : ErrorCode) : (s.complete e).badConfig = s.badConfig := rfl
@[simp] theorem State.complete_busy (s : State) (e : ErrorCode) : (s.complete e).busy = false := rfl

@[simp] theorem State.accept_elemByte (s : State) (w : Word) (i : Nat) : (s.accept w).elemByte i = s.elemByte i := rfl
@[simp] theorem State.accept_bitsByte (s : State) (w : Word) (j : Nat) : (s.accept w).bitsByte j = s.bitsByte j := rfl
@[simp] theorem State.accept_bitAt (s : State) (w : Word) (p : Nat) : (s.accept w).bitAt p = s.bitAt p := rfl
@[simp] theorem State.accept_element (s : State) (w : Word) : (s.accept w).element = s.element := rfl
@[simp] theorem State.accept_inFilter (s : State) (w : Word) (j : Nat) : (s.accept w).inFilter j = s.inFilter j := rfl
@[simp] theorem State.accept_windowByte (s : State) (w : Word) (j : Nat) : (s.accept w).windowByte j = s.windowByte j := rfl
@[simp] theorem State.accept_elemTooLong (s : State) (w : Word) : (s.accept w).elemTooLong = s.elemTooLong := rfl
@[simp] theorem State.accept_badConfig (s : State) (w : Word) : (s.accept w).badConfig = s.badConfig := rfl
@[simp] theorem State.accept_busy (s : State) (w : Word) : (s.accept w).busy = true := rfl

@[simp] theorem State.dropWrite_elemByte (s : State) (i : Nat) : (s.dropWrite).elemByte i = s.elemByte i := rfl
@[simp] theorem State.dropWrite_bitsByte (s : State) (j : Nat) : (s.dropWrite).bitsByte j = s.bitsByte j := rfl
@[simp] theorem State.dropWrite_bitAt (s : State) (p : Nat) : (s.dropWrite).bitAt p = s.bitAt p := rfl
@[simp] theorem State.dropWrite_element (s : State) : (s.dropWrite).element = s.element := rfl
@[simp] theorem State.dropWrite_inFilter (s : State) (j : Nat) : (s.dropWrite).inFilter j = s.inFilter j := rfl
@[simp] theorem State.dropWrite_windowByte (s : State) (j : Nat) : (s.dropWrite).windowByte j = s.windowByte j := rfl
@[simp] theorem State.dropWrite_elemTooLong (s : State) : (s.dropWrite).elemTooLong = s.elemTooLong := rfl
@[simp] theorem State.dropWrite_badConfig (s : State) : (s.dropWrite).badConfig = s.badConfig := rfl
@[simp] theorem State.dropWrite_busy (s : State) : (s.dropWrite).busy = s.busy := rfl

@[simp] theorem State.answered_elemByte (s : State) (a : Answer) (i : Nat) : (s.answered a).elemByte i = s.elemByte i := rfl
@[simp] theorem State.answered_bitsByte (s : State) (a : Answer) (j : Nat) : (s.answered a).bitsByte j = s.bitsByte j := rfl
@[simp] theorem State.answered_bitAt (s : State) (a : Answer) (p : Nat) : (s.answered a).bitAt p = s.bitAt p := rfl
@[simp] theorem State.answered_element (s : State) (a : Answer) : (s.answered a).element = s.element := rfl
@[simp] theorem State.answered_inFilter (s : State) (a : Answer) (j : Nat) : (s.answered a).inFilter j = s.inFilter j := rfl
@[simp] theorem State.answered_windowByte (s : State) (a : Answer) (j : Nat) : (s.answered a).windowByte j = s.windowByte j := rfl
@[simp] theorem State.answered_elemTooLong (s : State) (a : Answer) : (s.answered a).elemTooLong = s.elemTooLong := rfl
@[simp] theorem State.answered_badConfig (s : State) (a : Answer) : (s.answered a).badConfig = s.badConfig := rfl
@[simp] theorem State.answered_busy (s : State) (a : Answer) : (s.answered a).busy = s.busy := rfl

@[simp] theorem State.drew_elemByte (s : State) (i : Nat) : (s.drew).elemByte i = s.elemByte i := rfl
@[simp] theorem State.drew_bitsByte (s : State) (j : Nat) : (s.drew).bitsByte j = s.bitsByte j := rfl
@[simp] theorem State.drew_bitAt (s : State) (p : Nat) : (s.drew).bitAt p = s.bitAt p := rfl
@[simp] theorem State.drew_element (s : State) : (s.drew).element = s.element := rfl
@[simp] theorem State.drew_inFilter (s : State) (j : Nat) : (s.drew).inFilter j = s.inFilter j := rfl
@[simp] theorem State.drew_windowByte (s : State) (j : Nat) : (s.drew).windowByte j = s.windowByte j := rfl
@[simp] theorem State.drew_elemTooLong (s : State) : (s.drew).elemTooLong = s.elemTooLong := rfl
@[simp] theorem State.drew_badConfig (s : State) : (s.drew).badConfig = s.badConfig := rfl
@[simp] theorem State.drew_busy (s : State) : (s.drew).busy = s.busy := rfl

@[simp] theorem State.writeStatus_elemByte (s : State) (w : Word) (i : Nat) : (s.writeStatus w).elemByte i = s.elemByte i := rfl
@[simp] theorem State.writeStatus_bitsByte (s : State) (w : Word) (j : Nat) : (s.writeStatus w).bitsByte j = s.bitsByte j := rfl
@[simp] theorem State.writeStatus_bitAt (s : State) (w : Word) (p : Nat) : (s.writeStatus w).bitAt p = s.bitAt p := rfl
@[simp] theorem State.writeStatus_element (s : State) (w : Word) : (s.writeStatus w).element = s.element := rfl
@[simp] theorem State.writeStatus_inFilter (s : State) (w : Word) (j : Nat) : (s.writeStatus w).inFilter j = s.inFilter j := rfl
@[simp] theorem State.writeStatus_windowByte (s : State) (w : Word) (j : Nat) : (s.writeStatus w).windowByte j = s.windowByte j := rfl
@[simp] theorem State.writeStatus_elemTooLong (s : State) (w : Word) : (s.writeStatus w).elemTooLong = s.elemTooLong := rfl
@[simp] theorem State.writeStatus_badConfig (s : State) (w : Word) : (s.writeStatus w).badConfig = s.badConfig := rfl
@[simp] theorem State.writeStatus_busy (s : State) (w : Word) : (s.writeStatus w).busy = s.busy := rfl

@[simp] theorem State.writeCtrl_elemByte (s : State) (w : Word) (i : Nat) : (s.writeCtrl w).elemByte i = s.elemByte i := rfl
@[simp] theorem State.writeCtrl_bitsByte (s : State) (w : Word) (j : Nat) : (s.writeCtrl w).bitsByte j = s.bitsByte j := rfl
@[simp] theorem State.writeCtrl_bitAt (s : State) (w : Word) (p : Nat) : (s.writeCtrl w).bitAt p = s.bitAt p := rfl
@[simp] theorem State.writeCtrl_element (s : State) (w : Word) : (s.writeCtrl w).element = s.element := rfl
@[simp] theorem State.writeCtrl_inFilter (s : State) (w : Word) (j : Nat) : (s.writeCtrl w).inFilter j = s.inFilter j := rfl
@[simp] theorem State.writeCtrl_windowByte (s : State) (w : Word) (j : Nat) : (s.writeCtrl w).windowByte j = s.windowByte j := rfl
@[simp] theorem State.writeCtrl_elemTooLong (s : State) (w : Word) : (s.writeCtrl w).elemTooLong = s.elemTooLong := rfl
@[simp] theorem State.writeCtrl_badConfig (s : State) (w : Word) : (s.writeCtrl w).badConfig = s.badConfig := rfl
@[simp] theorem State.writeCtrl_busy (s : State) (w : Word) : (s.writeCtrl w).busy = s.busy := rfl

@[simp] theorem State.setDigests_elemByte (s : State) (i : Nat) : (s.setDigests).elemByte i = s.elemByte i := rfl
@[simp] theorem State.setDigests_bitsByte (s : State) (j : Nat) : (s.setDigests).bitsByte j = s.bitsByte j := rfl
@[simp] theorem State.setDigests_bitAt (s : State) (p : Nat) : (s.setDigests).bitAt p = s.bitAt p := rfl
@[simp] theorem State.setDigests_element (s : State) : s.setDigests.element = s.element := rfl
@[simp] theorem State.setDigests_inFilter (s : State) (j : Nat) : (s.setDigests).inFilter j = s.inFilter j := rfl
@[simp] theorem State.setDigests_windowByte (s : State) (j : Nat) : (s.setDigests).windowByte j = s.windowByte j := rfl
@[simp] theorem State.setDigests_elemTooLong (s : State) : (s.setDigests).elemTooLong = s.elemTooLong := rfl
@[simp] theorem State.setDigests_badConfig (s : State) : (s.setDigests).badConfig = s.badConfig := rfl
@[simp] theorem State.setDigests_busy (s : State) : (s.setDigests).busy = s.busy := rfl

@[simp] theorem State.advanceScript_elemByte (s : State) (i : Nat) : (s.advanceScript).elemByte i = s.elemByte i := rfl
@[simp] theorem State.advanceScript_bitsByte (s : State) (j : Nat) : (s.advanceScript).bitsByte j = s.bitsByte j := rfl
@[simp] theorem State.advanceScript_bitAt (s : State) (p : Nat) : (s.advanceScript).bitAt p = s.bitAt p := rfl
@[simp] theorem State.advanceScript_element (s : State) : (s.advanceScript).element = s.element := rfl
@[simp] theorem State.advanceScript_inFilter (s : State) (j : Nat) : (s.advanceScript).inFilter j = s.inFilter j := rfl
@[simp] theorem State.advanceScript_windowByte (s : State) (j : Nat) : (s.advanceScript).windowByte j = s.windowByte j := rfl
@[simp] theorem State.advanceScript_elemTooLong (s : State) : (s.advanceScript).elemTooLong = s.elemTooLong := rfl
@[simp] theorem State.advanceScript_badConfig (s : State) : (s.advanceScript).badConfig = s.badConfig := rfl
@[simp] theorem State.advanceScript_busy (s : State) : (s.advanceScript).busy = s.busy := rfl

@[simp] theorem State.advanceSchedule_elemByte (s : State) (i : Nat) : (s.advanceSchedule).elemByte i = s.elemByte i := rfl
@[simp] theorem State.advanceSchedule_bitsByte (s : State) (j : Nat) : (s.advanceSchedule).bitsByte j = s.bitsByte j := rfl
@[simp] theorem State.advanceSchedule_bitAt (s : State) (p : Nat) : (s.advanceSchedule).bitAt p = s.bitAt p := rfl
@[simp] theorem State.advanceSchedule_element (s : State) : (s.advanceSchedule).element = s.element := rfl
@[simp] theorem State.advanceSchedule_inFilter (s : State) (j : Nat) : (s.advanceSchedule).inFilter j = s.inFilter j := rfl
@[simp] theorem State.advanceSchedule_windowByte (s : State) (j : Nat) : (s.advanceSchedule).windowByte j = s.windowByte j := rfl
@[simp] theorem State.advanceSchedule_elemTooLong (s : State) : (s.advanceSchedule).elemTooLong = s.elemTooLong := rfl
@[simp] theorem State.advanceSchedule_badConfig (s : State) : (s.advanceSchedule).badConfig = s.badConfig := rfl
@[simp] theorem State.advanceSchedule_busy (s : State) : (s.advanceSchedule).busy = s.busy := rfl

theorem State.busy_iff (s : State) : s.busy = true ↔ ∃ w, s.phase = .busy w := by
  unfold State.busy Phase.isBusy
  cases s.phase <;> simp

theorem State.not_busy_iff (s : State) : s.busy = false ↔ s.phase = .idle := by
  unfold State.busy Phase.isBusy
  cases s.phase <;> simp

end Sys2Proof.Machine
end

