-- ==== Sys2Proof/Laws/Bus.lean ====
section
/-! SUPPORT. The laws of the host bus: byte order, the address decoder, and what a read or a write can do, said once
(20_memory.md R80 to R96). -/

namespace Sys2Proof.Machine

@[simp] theorem Reg.atOffset_offset (r : Reg) : Reg.atOffset r.offset = some r := by
  cases r <;> rfl

theorem Reg.offset_of_atOffset {a : Nat} {r : Reg} (h : Reg.atOffset a = some r) : r.offset = a := by
  unfold Reg.atOffset at h
  split at h <;> simp_all [Reg.offset] <;> subst h <;> rfl

theorem Reg.offset_lt (r : Reg) : r.offset < 0x40 := by cases r <;> decide

/-- The host address of an offset names that offset (00_scope.md R16). -/
theorem Params.offsetOf_hostAddress (p : Params) (off : Word) : p.offsetOf (p.hostAddress off) = some off := by
  have h : p.base ≤ p.hostAddress off ∧ p.hostAddress off < p.base + 2 ^ 32 := by
    have := off.isLt
    unfold Params.hostAddress
    omega
  unfold Params.offsetOf
  rw [if_pos h]
  simp [Params.hostAddress]

/-- Byte i of a value is its bits 8i to 8i + 7 (20_memory.md R81). -/
theorem getLsbD_leByte (v : Word) (i b : Nat) : (leByte v i).getLsbD b = (decide (b < 8) && v.getLsbD (8 * i + b)) := by
  simp [leByte]

/-- Bit 8i + b of the value of bytes is bit b of byte i (20_memory.md R81). -/
theorem getLsbD_leValue (bytes : List Byte) (q : Nat) :
    (leValue bytes).getLsbD q = (decide (q < 32) && (bytes.getD (q / 8) 0).getLsbD (q % 8)) := by
  induction bytes generalizing q with
  | nil => simp [leValue]
  | cons b rest ih =>
    simp only [leValue, BitVec.getLsbD_or, BitVec.getLsbD_shiftLeft, ih]
    by_cases hq : q < 8
    · have h0 : q / 8 = 0 := by omega
      have h1 : q % 8 = q := by omega
      have h2 : q < 32 := by omega
      simp [hq, h0, h1, h2, BitVec.truncate_eq_setWidth]
    · have hge : b.getLsbD q = false := BitVec.getLsbD_of_ge b q (by omega)
      have hd : q / 8 = (q - 8) / 8 + 1 := by omega
      have hm : q % 8 = (q - 8) % 8 := by omega
      by_cases h32 : q < 32
      · have : q - 8 < 32 := by omega
        simp [hq, hge, h32, this, hd, hm, BitVec.truncate_eq_setWidth]
      · simp [hge, h32, BitVec.truncate_eq_setWidth]

theorem getLsbD_gather (byte : Nat → Byte) (i n q : Nat) :
    (gather byte i n).getLsbD q = (decide (q < 32) && decide (q / 8 < n) && (byte (i + q / 8)).getLsbD (q % 8)) := by
  unfold gather
  rw [getLsbD_leValue]
  by_cases h : q / 8 < n
  · simp [h, List.getD_eq_getElem?_getD]
  · simp [h, List.getD_eq_getElem?_getD]

/-- The bytes of a gathered value are the window's bytes. -/
theorem leByte_gather (byte : Nat → Byte) (i : Nat) {n b : Nat} (hn : n ≤ 4) (hb : b < n) :
    leByte (gather byte i n) b = byte (i + b) := by
  apply BitVec.eq_of_getLsbD_eq
  intro q hq
  rw [getLsbD_leByte, getLsbD_gather]
  have h1 : (8 * b + q) / 8 = b := by omega
  have h2 : (8 * b + q) % 8 = q := by omega
  have h3 : 8 * b + q < 32 := by omega
  simp [hq, h1, h2, h3, hb]

theorem Width.bytes_pos (n : Width) : 1 ≤ n.bytes := by cases n <;> decide
theorem Width.bytes_le (n : Width) : n.bytes ≤ 4 := by cases n <;> decide

/-- What a write of n bytes leaves in the element buffer (20_memory.md R86). -/
theorem get?_writeElemBytes (m : Memory) (i : Nat) (v : Word) (n j : Nat) :
    (writeElemBytes m i v n).get? j = if i ≤ j ∧ j < i + n then some (leByte v (j - i)) else m.get? j := by
  induction n with
  | zero => simp [writeElemBytes]
  | succ n ih =>
    simp only [writeElemBytes, Memory.get?_write, ih]
    by_cases hj : i + n = j
    · subst hj; simp
    · by_cases hin : i ≤ j ∧ j < i + n
      · have : i ≤ j ∧ j < i + (n + 1) := by omega
        simp [hj, hin, this]
      · have : ¬ (i ≤ j ∧ j < i + (n + 1)) := by omega
        rw [if_neg hj, if_neg hin, if_neg this]

/-- What a write of n bytes leaves in the bit array: only bytes of the active filter change (20_memory.md R87, R88). -/
theorem get?_writeBitsBytes (inFilter : Nat → Bool) (m : Memory) (i : Nat) (v : Word) (n j : Nat) :
    (writeBitsBytes inFilter m i v n).get? j =
      if (i ≤ j ∧ j < i + n) ∧ inFilter j = true then some (leByte v (j - i)) else m.get? j := by
  induction n with
  | zero => simp [writeBitsBytes]
  | succ n ih =>
    simp only [writeBitsBytes]
    by_cases hj : i + n = j
    · subst hj
      cases hf : inFilter (i + n) <;> simp [ih, hf, Memory.get?_write]
    · have key : ((i ≤ j ∧ j < i + (n + 1)) ∧ inFilter j = true) ↔ ((i ≤ j ∧ j < i + n) ∧ inFilter j = true) := by
        constructor <;> rintro ⟨h, hf⟩ <;> exact ⟨by omega, hf⟩
      simp only [key]
      split
      · rw [Memory.get?_write, if_neg hj, ih]
      · exact ih

@[simp] theorem writeElemBytes_cleared (m : Memory) (i : Nat) (v : Word) (n : Nat) :
    (writeElemBytes m i v n).cleared = m.cleared := by
  induction n with
  | zero => rfl
  | succ n ih => simpa [writeElemBytes] using ih

@[simp] theorem writeBitsBytes_cleared (f : Nat → Bool) (m : Memory) (i : Nat) (v : Word) (n : Nat) :
    (writeBitsBytes f m i v n).cleared = m.cleared := by
  induction n with
  | zero => rfl
  | succ n ih =>
    simp only [writeBitsBytes]
    split
    · simpa using ih
    · exact ih

theorem writeElemBytes_wf {m : Memory} (i : Nat) (v : Word) (n : Nat) (h : m.wf) : (writeElemBytes m i v n).wf := by
  induction n with
  | zero => exact h
  | succ n ih => exact Memory.wf_write _ _ ih

theorem writeBitsBytes_wf (f : Nat → Bool) {m : Memory} (i : Nat) (v : Word) (n : Nat) (h : m.wf) :
    (writeBitsBytes f m i v n).wf := by
  induction n with
  | zero => exact h
  | succ n ih =>
    simp only [writeBitsBytes]
    split
    · exact Memory.wf_write _ _ ih
    · exact ih

theorem writeElemBytes_within {m : Memory} {i n k : Nat} (v : Word) (hk : i + n ≤ k) (h : m.within k) :
    (writeElemBytes m i v n).within k := by
  induction n with
  | zero => exact h
  | succ n ih => exact Memory.within_write _ (by omega) (ih (by omega))

theorem writeBitsBytes_within {f : Nat → Bool} {m : Memory} {i n k : Nat} (v : Word)
    (hk : ∀ j, f j = true → j < k) (h : m.within k) : (writeBitsBytes f m i v n).within k := by
  induction n with
  | zero => exact h
  | succ n ih =>
    simp only [writeBitsBytes]
    split
    · rename_i hf
      exact Memory.within_write _ (hk _ hf) ih
    · exact ih

/-- The decoder's answer for a register: a word access, at the register's offset (20_memory.md R84). -/
theorem decodeAccess_reg {p : Params} {addr : Word} {n : Width} {r : Reg} (h : decodeAccess p addr n = .reg r) :
    n = .word ∧ addr.toNat = r.offset := by
  unfold decodeAccess at h
  simp only at h
  split at h
  · simp at h
  · split at h
    · unfold regTarget at h
      cases hr : Reg.atOffset addr.toNat with
      | none => cases n <;> simp [hr] at h
      | some r' =>
        cases n <;> simp only [hr, Target.reg.injEq, reduceCtorEq] at h
        exact ⟨rfl, by rw [← h, Reg.offset_of_atOffset hr]⟩
    · split at h
      · simp at h
      · split at h <;> simp at h

/-- The decoder's answer for the element window: aligned and wholly inside (20_memory.md R86). -/
theorem decodeAccess_elem {p : Params} {addr : Word} {n : Width} {i : Nat} (h : decodeAccess p addr n = .elem i) :
    addr.toNat = elemWindow + i ∧ i + n.bytes ≤ p.maxElemBytes ∧ addr.toNat % n.bytes = 0 := by
  unfold decodeAccess at h
  simp only at h
  split at h
  · simp at h
  · rename_i hal
    split at h
    · unfold regTarget at h
      split at h <;> simp at h
    · split at h
      · rename_i hw
        simp only [Target.elem.injEq] at h
        omega
      · split at h <;> simp at h

/-- The decoder's answer for the bit-array window: aligned and wholly inside (20_memory.md R87). -/
theorem decodeAccess_bits {p : Params} {addr : Word} {n : Width} {j : Nat} (h : decodeAccess p addr n = .bits j) :
    addr.toNat = bitsWindow + j ∧ j + n.bytes ≤ p.maxBitsetBytes ∧ addr.toNat % n.bytes = 0 := by
  unfold decodeAccess at h
  simp only at h
  split at h
  · simp at h
  · rename_i hal
    split at h
    · unfold regTarget at h
      split at h <;> simp at h
    · split at h
      · simp at h
      · split at h
        · rename_i hw
          simp only [Target.bits.injEq] at h
          omega
        · simp at h

/-- A word access at a register's offset reaches the register, whatever the parameters (20_memory.md R83, R84). -/
@[simp] theorem decodeAccess_regOffset (p : Params) (r : Reg) :
    decodeAccess p (Off.reg r).value .word = .reg r := by
  cases r <;> rfl

theorem decodeAccess_of_elem {p : Params} {addr : Word} {n : Width} (ha : addr.toNat % n.bytes = 0)
    (hr : ¬ addr.toNat < regWindowBytes)
    (he : elemWindow ≤ addr.toNat ∧ addr.toNat + n.bytes ≤ elemWindow + p.maxElemBytes) :
    decodeAccess p addr n = .elem (addr.toNat - elemWindow) := by
  simp only [decodeAccess, ha, hr, he, ne_eq, not_true, if_false, and_self, if_true]

theorem decodeAccess_of_bits {p : Params} {addr : Word} {n : Width} (ha : addr.toNat % n.bytes = 0)
    (hr : ¬ addr.toNat < regWindowBytes)
    (he : ¬ (elemWindow ≤ addr.toNat ∧ addr.toNat + n.bytes ≤ elemWindow + p.maxElemBytes))
    (hb : bitsWindow ≤ addr.toNat ∧ addr.toNat + n.bytes ≤ bitsWindow + p.maxBitsetBytes) :
    decodeAccess p addr n = .bits (addr.toNat - bitsWindow) := by
  simp only [decodeAccess, ha, hr, he, hb, ne_eq, not_true, if_false, and_self, if_true]

theorem toNat_elemOffset {i : Nat} (h : i < 2 ^ 28) : (Off.elem i).value.toNat = 268435456 + i := by
  simp only [Off.value, elemWindow, BitVec.toNat_ofNat]
  omega

theorem toNat_bitsOffset {j : Nat} (h : j < 2 ^ 31) : (Off.bits j).value.toNat = 2147483648 + j := by
  simp only [Off.value, bitsWindow, BitVec.toNat_ofNat]
  omega

/-- An aligned access inside the element window reaches it (20_memory.md R83, R86). -/
theorem decodeAccess_elemOffset {p : Params} {n : Width} {i : Nat} (ha : i % n.bytes = 0)
    (hi : i + n.bytes ≤ p.maxElemBytes) (hp : p.Legal) : decodeAccess p (Off.elem i).value n = .elem i := by
  have hb := n.bytes_pos
  obtain ⟨-, -, hmax⟩ := hp
  have hv := toNat_elemOffset (i := i) (by omega)
  have hal : (268435456 + i) % n.bytes = 0 := by
    cases n <;> simp only [Width.bytes] at * <;> omega
  rw [decodeAccess_of_elem] <;> simp only [hv, elemWindow, regWindowBytes]
  · exact congrArg Target.elem (by omega)
  · exact hal
  · omega
  · omega

/-- An aligned access inside the bit-array window reaches it (20_memory.md R83, R87). -/
theorem decodeAccess_bitsOffset {p : Params} {n : Width} {j : Nat} (ha : j % n.bytes = 0)
    (hj : j + n.bytes ≤ p.maxBitsetBytes) (hp : p.Legal) : decodeAccess p (Off.bits j).value n = .bits j := by
  have hb := n.bytes_pos
  obtain ⟨⟨-, hmax⟩, -, hel⟩ := hp
  have hv := toNat_bitsOffset (j := j) (by omega)
  have hal : (2147483648 + j) % n.bytes = 0 := by
    cases n <;> simp only [Width.bytes] at * <;> omega
  rw [decodeAccess_of_bits] <;> simp only [hv, elemWindow, bitsWindow, regWindowBytes]
  · exact congrArg Target.bits (by omega)
  · exact hal
  · omega
  · omega
  · omega

/-- Everything a bus read can do: it answers; while busy a bit-array read also draws free bytes (20_memory.md R93,
R96). -/
theorem busRead_cases (s : State) (addr : Word) (n : Width) :
    (∃ a, busRead s addr n = s.answered a) ∨ (s.busy = true ∧ ∃ a, busRead s addr n = s.drew.answered a) := by
  unfold busRead
  split
  · exact .inl ⟨_, rfl⟩
  · exact .inl ⟨_, rfl⟩
  · split
    · rename_i hb
      exact .inr ⟨hb, _, rfl⟩
    · exact .inl ⟨_, rfl⟩
  · exact .inl ⟨_, rfl⟩

theorem State.unlessBusy_of_busy {s : State} (t : State) (h : s.busy = true) : s.unlessBusy t = s.dropWrite := by
  simp [State.unlessBusy, h]

theorem State.unlessBusy_of_idle {s : State} (t : State) (h : s.busy = false) : s.unlessBusy t = t := by
  simp [State.unlessBusy, h]

/-- A word write at a register's offset writes the register (20_memory.md R84). -/
theorem busWrite_reg (s : State) (r : Reg) (v : Word) :
    busWrite s (Off.reg r).value .word v = (s.writeReg r v).answered .done := by
  simp only [busWrite, decodeAccess_regOffset]

/-- A word read at a register's offset reads the register (20_memory.md R84). -/
theorem busRead_reg (s : State) (r : Reg) :
    busRead s (Off.reg r).value .word = s.answered (.data (s.readReg r)) := by
  simp only [busRead, decodeAccess_regOffset]

/-- Everything a bus write can do to the block, before it is answered (20_memory.md R84 to R89, R95). -/
inductive WriteEffect (s : State) : State → Prop where
  | nothing : WriteEffect s s
  | ctrl (w : Word) : WriteEffect s (s.writeCtrl w)
  | status (w : Word) : WriteEffect s (s.writeStatus w)
  | dropped (h : s.busy = true) : WriteEffect s s.dropWrite
  | accepted (h : s.busy = false) (w : Word) : WriteEffect s (s.accept w)
  | cfgSize (h : s.busy = false) (w : Word) : WriteEffect s { s with cfgSize := w }
  | cfgK (h : s.busy = false) (w : Word) : WriteEffect s { s with cfgK := w }
  | seed (h : s.busy = false) (w : Word) : WriteEffect s { s with seed := w }
  | elemLen (h : s.busy = false) (w : Word) : WriteEffect s { s with elemLen := w }
  | elem (h : s.busy = false) (i n : Nat) (v : Word) (hi : i + n ≤ s.params.maxElemBytes) :
      WriteEffect s { s with elem := writeElemBytes s.elem i v n }
  | bits (h : s.busy = false) (j n : Nat) (v : Word) (hj : j + n ≤ s.params.maxBitsetBytes) :
      WriteEffect s { s with bits := writeBitsBytes s.inFilter s.bits j v n }

theorem unlessBusy_effect {s t : State} (h : s.busy = false → WriteEffect s t) : WriteEffect s (s.unlessBusy t) := by
  unfold State.unlessBusy
  split
  · rename_i hb; exact .dropped hb
  · rename_i hb; exact h (by simpa using hb)

theorem writeReg_effect (s : State) (r : Reg) (w : Word) : WriteEffect s (s.writeReg r w) := by
  cases r
  all_goals first
    | exact .nothing
    | exact .ctrl w
    | exact .status w
    | exact unlessBusy_effect fun h => .accepted h w
    | exact unlessBusy_effect fun h => .cfgSize h w
    | exact unlessBusy_effect fun h => .cfgK h w
    | exact unlessBusy_effect fun h => .seed h w
    | exact unlessBusy_effect fun h => .elemLen h w

theorem busWrite_cases (s : State) (addr : Word) (n : Width) (v : Word) :
    ∃ t a, WriteEffect s t ∧ busWrite s addr n v = t.answered a := by
  unfold busWrite
  split
  · exact ⟨_, _, writeReg_effect s _ v, rfl⟩
  · rename_i i hd
    exact ⟨_, _, unlessBusy_effect fun h => .elem h i _ v (decodeAccess_elem hd).2.1, rfl⟩
  · rename_i j hd
    exact ⟨_, _, unlessBusy_effect fun h => .bits h j _ v (decodeAccess_bits hd).2.1, rfl⟩
  · exact ⟨_, _, .nothing, rfl⟩

/-- Everything a bus write can do to the flags of STATUS and CTRL, with the address that does it (10_state.md R33, R34;
20_memory.md R95; 60_exceptions.md R230). -/
theorem busWrite_flags (s : State) (addr : Word) (n : Width) (v : Word) :
    ((busWrite s addr n v).done = s.done ∨
      (n = .word ∧ addr.toNat = 0x008 ∧ (busWrite s addr n v).done = (s.done && !v.getLsbD 2)) ∨
      (n = .word ∧ addr.toNat = 0x00C ∧ s.busy = false ∧ (busWrite s addr n v).done = false ∧
        (busWrite s addr n v).phase = .busy v)) ∧
    ((busWrite s addr n v).phase = s.phase ∨
      (n = .word ∧ addr.toNat = 0x00C ∧ s.busy = false ∧ (busWrite s addr n v).phase = .busy v)) ∧
    ((busWrite s addr n v).ovr = s.ovr ∨ (s.busy = true ∧ (busWrite s addr n v).ovr = true ∧
        (busWrite s addr n v).done = s.done ∧ (busWrite s addr n v).irqEn = s.irqEn) ∨
      (n = .word ∧ addr.toNat = 0x008 ∧ (busWrite s addr n v).ovr = (s.ovr && !v.getLsbD 3))) ∧
    ((busWrite s addr n v).irqEn = s.irqEn ∨
      (n = .word ∧ addr.toNat = 0x004 ∧ (busWrite s addr n v).irqEn = v.getLsbD 0)) ∧
    (busWrite s addr n v).err = s.err ∧ (busWrite s addr n v).inited = s.inited := by
  unfold busWrite
  cases hd : decodeAccess s.params addr n with
  | busError => simp
  | elem i => cases hb : s.busy <;> simp [State.unlessBusy, hb]
  | bits j => cases hb : s.busy <;> simp [State.unlessBusy, hb]
  | reg r =>
    obtain ⟨hn, ha⟩ := decodeAccess_reg hd
    cases hb : s.busy <;> cases r <;> simp [State.writeReg, State.unlessBusy, hb, hn, ha, Reg.offset]

/-- A bus read leaves every flag (20_memory.md R93). -/
theorem busRead_flags (s : State) (addr : Word) (n : Width) :
    (busRead s addr n).done = s.done ∧ (busRead s addr n).phase = s.phase ∧ (busRead s addr n).ovr = s.ovr ∧
      (busRead s addr n).irqEn = s.irqEn ∧ (busRead s addr n).err = s.err ∧ (busRead s addr n).inited = s.inited := by
  rcases busRead_cases s addr n with ⟨a, h⟩ | ⟨-, a, h⟩ <;> simp [h]

end Sys2Proof.Machine
end

