-- ==== Sys2Proof/Laws/Decode.lean ====
section
/-! SUPPORT. What the decoder can answer, once, and the byte order of a command word. -/

namespace Sys2Proof

/-- RSV is 0 exactly for the words below 256 (30_encoding.md R120). -/
theorem rsvField_eq_zero (w : Word) : rsvField w = 0 ↔ w.toNat < 256 := by
    have hz : (0 : BitVec 24).toNat = 0 := by simp
    rw [← BitVec.toNat_inj, hz]
    simp only [rsvField, BitVec.extractLsb'_toNat, Nat.shiftRight_eq_div_pow]
    have := w.isLt
    omega
/-- OPC is the word modulo 256 (R120). -/
theorem opcField_eq (w : Word) (n : Byte) : opcField w = n ↔ w.toNat % 256 = n.toNat := by
    rw [← BitVec.toNat_inj]
    simp [opcField, BitVec.extractLsb'_toNat]
/-- The opcode map has one OPC per command (R122). -/
theorem decodeOpc_eq_ok_iff (b : Byte) (i : Instr) : decodeOpc b = .ok i ↔ b = opcOf i := by
  unfold decodeOpc
  split_ifs <;> cases i <;> simp_all [opcOf]
/-- The one inversion lemma of the decoder: a word decodes to a command exactly if it is that command's word
(30_encoding.md R122, R123). -/
theorem decode_eq_ok_iff (w : Word) (i : Instr) : decode w = .ok i ↔ w.toNat = (opcOf i).toNat := by
  have hlt := (opcOf i).isLt
  unfold decode
  by_cases h : rsvField w = 0
  · have hw := (rsvField_eq_zero w).1 h
    simp only [h, ne_eq, not_true, if_false, decodeOpc_eq_ok_iff, opcField_eq, Nat.mod_eq_of_lt hw]
  · have hw := mt (rsvField_eq_zero w).2 h
    simp only [ne_eq, h, not_false_iff, if_true, reduceCtorEq, false_iff]
    omega

/-- The command word of a command is its OPC, zero-extended (R122). -/
theorem encode_toNat (i : Instr) : (encode i).toNat = (opcOf i).toNat := by
  cases i <;> rfl

/-- Taking a word apart into bytes and putting it together again gives the word (20_memory.md R81). -/
theorem wordOfBytes_extract (w : Word) :
    wordOfBytes (w.extractLsb' 0 8) (w.extractLsb' 8 8) (w.extractLsb' 16 8) (w.extractLsb' 24 8) = w := by
  unfold wordOfBytes
  apply BitVec.eq_of_getLsbD_eq
  intro i hi
  simp only [BitVec.getLsbD_append, BitVec.getLsbD_extractLsb']
  by_cases h1 : i < 8
  · simp [h1]
  · by_cases h2 : i < 16
    · have : i - 8 < 8 := by omega
      simp [h1, this, show 8 + (i - 8) = i by omega]
    · by_cases h3 : i < 24
      · have a : ¬ i - 8 < 8 := by omega
        have b : i - 8 - 8 < 8 := by omega
        simp [h1, a, b, show 16 + (i - 8 - 8) = i by omega]
      · have a : ¬ i - 8 < 8 := by omega
        have b : ¬ i - 8 - 8 < 8 := by omega
        have c : i - 8 - 8 - 8 < 8 := by omega
        simp [h1, a, b, c, show 24 + (i - 8 - 8 - 8) = i by omega]
end Sys2Proof
end

