-- ==== Sys2Proof/Laws/Filter.lean ====
section
/-! SUPPORT. The laws of the bit array: what a bit reads after one bit is set, after INSERT's loop and after a clear;
what CONTAINS's answer says; that all of it keeps the canonical form (41_filter.md R172, R174, R195 to R201). -/

namespace Sys2Proof.Machine

/-- `(v >> b) & 1` is bit b of v (20_memory.md R102). -/
theorem testByte_eq_getLsbD (v : Byte) (b : Nat) : testByte v b = v.getLsbD b := by
  have h : ∀ x : Byte, (x &&& 1#8 = 1#8) ↔ x.getLsbD 0 = true := by decide
  unfold testByte
  rw [Bool.eq_iff_iff, decide_eq_true_eq, h]
  simp

@[simp] theorem arrayByte_write (epoch : Nat) (m : Memory) (a b : Nat) (v : Byte) :
    arrayByte epoch (m.write a v) b = if a = b then v else arrayByte epoch m b := by
  unfold arrayByte
  rw [Memory.get?_write]
  by_cases h : a = b <;> simp [h]

theorem arrayByte_clear (epoch : Nat) (m : Memory) (n j : Nat) :
    arrayByte epoch (m.clear n) j = if j < n then 0 else arrayByte epoch m j := by
  unfold arrayByte
  rw [Memory.get?_clear]
  by_cases h : j < n <;> simp [h]

theorem getLsbD_bitMask {off b : Nat} (hoff : off < 8) (hb : b < 8) :
    (bitMask off).getLsbD b = decide (off = b) := by
  unfold bitMask
  interval_cases off <;> interval_cases b <;> decide

/-- Setting the bit at p sets that bit and no other (41_filter.md R172, R195). -/
theorem arrayBit_setArrayBit (epoch : Nat) (m : Memory) (p q : Nat) :
    arrayBit epoch (setArrayBit epoch m p) q = (decide (p = q) || arrayBit epoch m q) := by
  unfold arrayBit setArrayBit bitSlot bitOffset
  simp only [arrayByte_write, testByte_eq_getLsbD]
  by_cases hs : p / 8 = q / 8
  · rw [if_pos hs, BitVec.getLsbD_or, getLsbD_bitMask (Nat.mod_lt _ (by decide)) (Nat.mod_lt _ (by decide)), hs,
      Bool.or_comm]
    congr 1
    rw [Bool.eq_iff_iff, decide_eq_true_eq, decide_eq_true_eq]
    omega
  · have : p ≠ q := fun h => hs (by rw [h])
    simp [hs, this]

/-- The bits after INSERT's loop: the old ones and those of the k derived hashes (41_filter.md R195, R196). -/
theorem arrayBit_insertBits (epoch size : Nat) (h1 h2 : Word) (m : Memory) (k q : Nat) :
    arrayBit epoch (insertBits epoch size h1 h2 m k) q = true ↔
      arrayBit epoch m q = true ∨ ∃ i, i < k ∧ bitPosition (derivedHash h1 h2 i) size = q := by
  induction k with
  | zero => simp [insertBits]
  | succ k ih =>
    simp only [insertBits, arrayBit_setArrayBit, Bool.or_eq_true, decide_eq_true_eq, ih]
    constructor
    · rintro (h | h | ⟨i, hi, h⟩)
      · exact .inr ⟨k, Nat.lt_succ_self k, h⟩
      · exact .inl h
      · exact .inr ⟨i, Nat.lt_succ_of_lt hi, h⟩
    · rintro (h | ⟨i, hi, h⟩)
      · exact .inr (.inl h)
      · rcases Nat.lt_succ_iff_lt_or_eq.1 hi with hi | rfl
        · exact .inr (.inr ⟨i, hi, h⟩)
        · exact .inl h

/-- CONTAINS answers 1 exactly when the bits of all k derived hashes are set (41_filter.md R200, R201). -/
theorem containsBits_iff (epoch size : Nat) (h1 h2 : Word) (m : Memory) (k : Nat) :
    containsBits epoch size h1 h2 m k = true ↔
      ∀ i, i < k → arrayBit epoch m (bitPosition (derivedHash h1 h2 i) size) = true := by
  induction k with
  | zero => simp [containsBits]
  | succ k ih =>
    simp only [containsBits, Bool.and_eq_true, ih]
    constructor
    · rintro ⟨h, hk⟩ i hi
      rcases Nat.lt_succ_iff_lt_or_eq.1 hi with hi | rfl
      · exact h i hi
      · exact hk
    · exact fun h => ⟨fun i hi => h i (Nat.lt_succ_of_lt hi), h k (Nat.lt_succ_self k)⟩

@[simp] theorem insertBits_cleared (epoch size : Nat) (h1 h2 : Word) (m : Memory) (k : Nat) :
    (insertBits epoch size h1 h2 m k).cleared = m.cleared := by
  induction k with
  | zero => rfl
  | succ k ih => simpa [insertBits, setArrayBit] using ih

theorem insertBits_wf (epoch size : Nat) (h1 h2 : Word) {m : Memory} (k : Nat) (h : m.wf) :
    (insertBits epoch size h1 h2 m k).wf := by
  induction k with
  | zero => exact h
  | succ k ih => exact Memory.wf_write _ _ ih

/-- Every position is below S, so its slot is (41_filter.md R174). -/
theorem bitSlot_bitPosition_lt (v : Word) {size : Nat} (h : 1 ≤ size) : bitSlot (bitPosition v size) < size := by
  have : v.toNat % size < size := Nat.mod_lt _ h
  unfold bitSlot bitPosition
  omega

theorem insertBits_within (epoch : Nat) {size n : Nat} (h1 h2 : Word) {m : Memory} (k : Nat) (hs : 1 ≤ size)
    (hn : size ≤ n) (h : m.within n) : (insertBits epoch size h1 h2 m k).within n := by
  induction k with
  | zero => exact h
  | succ k ih =>
    exact Memory.within_write _ (Nat.lt_of_lt_of_le (bitSlot_bitPosition_lt _ hs) hn) ih

/-- INSERT leaves every byte that holds none of its positions (41_filter.md R195). -/
theorem get?_insertBits_other (epoch size : Nat) (h1 h2 : Word) (m : Memory) (k j : Nat)
    (h : ∀ i, i < k → bitSlot (bitPosition (derivedHash h1 h2 i) size) ≠ j) :
    (insertBits epoch size h1 h2 m k).get? j = m.get? j := by
  induction k with
  | zero => rfl
  | succ k ih =>
    simp only [insertBits, setArrayBit, Memory.get?_write]
    rw [if_neg (h k (Nat.lt_succ_self k)), ih fun i hi => h i (Nat.lt_succ_of_lt hi)]

/-- A byte that holds one of INSERT's positions has a value afterwards. -/
theorem get?_insertBits_hit (epoch size : Nat) (h1 h2 : Word) (m : Memory) (k i : Nat) (hi : i < k) :
    ((insertBits epoch size h1 h2 m k).get? (bitSlot (bitPosition (derivedHash h1 h2 i) size))).isSome := by
  induction k with
  | zero => omega
  | succ k ih =>
    simp only [insertBits, setArrayBit, Memory.get?_write]
    split
    · rfl
    · rename_i hne
      rcases Nat.lt_succ_iff_lt_or_eq.1 hi with hi | rfl
      · exact ih hi
      · exact absurd rfl hne

/-- A byte is known by its eight bits. -/
theorem arrayByte_ext {epoch : Nat} {m n : Memory} {j : Nat}
    (h : ∀ q, q / 8 = j → arrayBit epoch m q = arrayBit epoch n q) : arrayByte epoch m j = arrayByte epoch n j := by
  apply BitVec.eq_of_getLsbD_eq
  intro b hb
  have := h (8 * j + b) (by omega)
  simp only [arrayBit, testByte_eq_getLsbD, bitSlot, bitOffset] at this
  rwa [show (8 * j + b) / 8 = j by omega, show (8 * j + b) % 8 = b by omega] at this

/-- After a clear of n bytes every bit of them is 0 (41_filter.md R181). -/
theorem arrayBit_clear (epoch : Nat) (m : Memory) (n p : Nat) :
    arrayBit epoch (m.clear n) p = if p / 8 < n then false else arrayBit epoch m p := by
  unfold arrayBit bitSlot
  rw [arrayByte_clear]
  split
  · rw [testByte_eq_getLsbD]; simp
  · rfl

end Sys2Proof.Machine
end

