-- ==== Sys2Proof/Laws/Exec.lean ====
section
/-! SUPPORT. What each command can do, said once (41_filter.md; 40_hash_engine.md; 60_exceptions.md R220 to R238). -/

namespace Sys2Proof.Machine

theorem State.elemTooLong_iff (s : State) : s.elemTooLong = true ↔ s.params.maxElemBytes < s.elemLen.toNat := by
  simp [State.elemTooLong]

theorem State.elemTooLong_false_iff (s : State) : s.elemTooLong = false ↔ s.elemLen.toNat ≤ s.params.maxElemBytes := by
  simp [State.elemTooLong]

theorem State.badConfig_iff (s : State) :
    s.badConfig = true ↔ s.cfgSize.toNat < 1 ∨ s.params.maxBitsetBytes < s.cfgSize.toNat ∨ s.cfgK.toNat < 1 := by
  simp only [State.badConfig, Bool.or_eq_true, decide_eq_true_eq, or_assoc]

theorem State.badConfig_false_iff (s : State) :
    s.badConfig = false ↔
      1 ≤ s.cfgSize.toNat ∧ s.cfgSize.toNat ≤ s.params.maxBitsetBytes ∧ 1 ≤ s.cfgK.toNat := by
  rw [← Bool.not_eq_true, State.badConfig_iff]
  omega

/-- The state a successful INIT leaves (41_filter.md R180). -/
theorem execInit_of_good {s : State} (h : s.badConfig = false) :
    execInit s = .next ({ s with
      bits := s.bits.clear s.cfgSize.toNat, size := s.cfgSize, k := s.cfgK, inited := true }.complete .ok) := by
  simp [execInit, h]

theorem execInit_of_bad {s : State} (h : s.badConfig = true) : execInit s = .next (s.complete .invalidConfig) := by
  simp [execInit, h]

theorem execHash_of_fits {s : State} (h : s.elemTooLong = false) :
    execHash s = .next ({ s with hashOut := hash32 s.element s.seed }.complete .ok) := by
  simp [execHash, h]

theorem execHash_of_long {s : State} (h : s.elemTooLong = true) : execHash s = .next (s.complete .elemRange) := by
  simp [execHash, h]

theorem execDerive_of_fits {s : State} (h : s.elemTooLong = false) :
    execDerive s = .next (s.setDigests.complete .ok) := by
  simp [execDerive, h]

theorem execDerive_of_long {s : State} (h : s.elemTooLong = true) :
    execDerive s = .next (s.complete .elemRange) := by
  simp [execDerive, h]

theorem execInsert_of_uninit {s : State} (h : s.inited = false) :
    execInsert s = .next (s.complete .useBeforeInit) := by
  simp [execInsert, h]

theorem execInsert_of_long {s : State} (hi : s.inited = true) (h : s.elemTooLong = true) :
    execInsert s = .next (s.complete .elemRange) := by
  simp [execInsert, hi, h]

theorem execInsert_of_fits {s : State} (hi : s.inited = true) (h : s.elemTooLong = false) :
    execInsert s = .next ({ s.setDigests with
      bits := insertBits s.epoch s.size.toNat (digest1 s.element) (digest2 s.element) s.bits s.k.toNat
      }.complete .ok) := by
  simp [execInsert, hi, h]

theorem execContains_of_uninit {s : State} (h : s.inited = false) :
    execContains s = .next (s.complete .useBeforeInit) := by
  simp [execContains, h]

theorem execContains_of_long {s : State} (hi : s.inited = true) (h : s.elemTooLong = true) :
    execContains s = .next (s.complete .elemRange) := by
  simp [execContains, hi, h]

theorem execContains_of_fits {s : State} (hi : s.inited = true) (h : s.elemTooLong = false) :
    execContains s = .next ({ s.setDigests with
      member := containsBits s.epoch s.size.toNat (digest1 s.element) (digest2 s.element) s.bits s.k.toNat
      }.complete .ok) := by
  simp [execContains, hi, h]

/-- The result registers and arrays a command writes when it succeeds, before its completion (30_encoding.md R121). -/
inductive Succeeds : Instr → State → State → Prop where
  | init (s : State) (h : s.badConfig = false) : Succeeds .init s
      { s with bits := s.bits.clear s.cfgSize.toNat, size := s.cfgSize, k := s.cfgK, inited := true }
  | deinit (s : State) : Succeeds .deinit s { s with inited := false, size := 0, k := 0 }
  | hash (s : State) (h : s.elemTooLong = false) : Succeeds .hash s { s with hashOut := hash32 s.element s.seed }
  | derive (s : State) (h : s.elemTooLong = false) : Succeeds .derive s s.setDigests
  | insert (s : State) (hi : s.inited = true) (h : s.elemTooLong = false) : Succeeds .insert s
      { s.setDigests with
        bits := insertBits s.epoch s.size.toNat (digest1 s.element) (digest2 s.element) s.bits s.k.toNat }
  | contains (s : State) (hi : s.inited = true) (h : s.elemTooLong = false) : Succeeds .contains s
      { s.setDigests with
        member := containsBits s.epoch s.size.toNat (digest1 s.element) (digest2 s.element) s.bits s.k.toNat }

/-- Everything a command can do: it completes, with an error and no other effect, or with all its writes
(60_exceptions.md R232, R233). -/
theorem exec_cases (i : Instr) (s : State) :
    (∃ e, e ≠ .ok ∧ exec i s = .next (s.complete e)) ∨ (∃ t, Succeeds i s t ∧ exec i s = .next (t.complete .ok)) := by
  cases i with
  | init =>
    cases h : s.badConfig with
    | true => exact .inl ⟨_, by decide, execInit_of_bad h⟩
    | false => exact .inr ⟨_, .init s h, execInit_of_good h⟩
  | deinit => exact .inr ⟨_, .deinit s, rfl⟩
  | hash =>
    cases h : s.elemTooLong with
    | true => exact .inl ⟨_, by decide, execHash_of_long h⟩
    | false => exact .inr ⟨_, .hash s h, execHash_of_fits h⟩
  | derive =>
    cases h : s.elemTooLong with
    | true => exact .inl ⟨_, by decide, execDerive_of_long h⟩
    | false => exact .inr ⟨_, .derive s h, execDerive_of_fits h⟩
  | insert =>
    cases hi : s.inited with
    | false => exact .inl ⟨_, by decide, execInsert_of_uninit hi⟩
    | true =>
      cases h : s.elemTooLong with
      | true => exact .inl ⟨_, by decide, execInsert_of_long hi h⟩
      | false => exact .inr ⟨_, .insert s hi h, execInsert_of_fits hi h⟩
  | contains =>
    cases hi : s.inited with
    | false => exact .inl ⟨_, by decide, execContains_of_uninit hi⟩
    | true =>
      cases h : s.elemTooLong with
      | true => exact .inl ⟨_, by decide, execContains_of_long hi h⟩
      | false => exact .inr ⟨_, .contains s hi h, execContains_of_fits hi h⟩

/-- The engine step completes every command word: with an error and no other effect, or with a command's writes
(60_exceptions.md R232). -/
theorem engineStep_cases (w : Word) (s : State) :
    (∃ e, e ≠ .ok ∧ engineStep w s = .next (s.complete e)) ∨
      (∃ i t, decode w = .ok i ∧ Succeeds i s t ∧ engineStep w s = .next (t.complete .ok)) := by
  unfold engineStep
  cases hd : decode w with
  | error x => exact .inl ⟨.illegalCmd, by decide, rfl⟩
  | ok i =>
    rcases exec_cases i s with h | ⟨t, ht, h⟩
    · exact .inl h
    · exact .inr ⟨i, t, rfl, ht, h⟩

end Sys2Proof.Machine
end

