-- ==== Sys2Proof/Laws/Flags.lean ====
section
/-! SUPPORT. The bits of the registers that are made of flags (10_state.md R33, R34, R45). -/

namespace Sys2Proof.Machine

@[simp] theorem getLsbD_flagBit (f : Bool) (b : Nat) : (flagBit f).getLsbD b = (decide (b = 0) && f) := by
  cases f <;> simp [flagBit]

/-- The bits of `STATUS` as the host reads it (10_state.md R34). -/
theorem getLsbD_statusWord (s : State) (b : Nat) :
    s.statusWord.getLsbD b = (decide (b = 0) && s.busy || decide (b = 1) && s.inited || decide (b = 2) && s.done ||
      decide (b = 3) && s.ovr || decide (8 ≤ b) && s.err.code.getLsbD (b - 8)) := by
  unfold State.statusWord
  simp only [BitVec.getLsbD_append, getLsbD_flagBit]
  by_cases hb : b < 12
  · interval_cases b <;> simp
  · have h1 : ¬ b < 1 := by omega
    have h2 : ¬ b - 1 < 1 := by omega
    have h3 : ¬ b - 1 - 1 < 1 := by omega
    have h4 : ¬ b - 1 - 1 - 1 < 1 := by omega
    have h5 : ¬ b - 1 - 1 - 1 - 1 < 4 := by omega
    have h6 : ¬ b - 1 - 1 - 1 - 1 - 4 < 4 := by omega
    have h7 : s.err.code.getLsbD (b - 8) = false := BitVec.getLsbD_of_ge _ _ (by omega)
    rw [if_neg h1, if_neg h2, if_neg h3, if_neg h4, if_neg h5, if_neg h6, h7]
    have n0 : b ≠ 0 := by omega
    have n1 : b ≠ 1 := by omega
    have n2 : b ≠ 2 := by omega
    have n3 : b ≠ 3 := by omega
    simp [n0, n1, n2, n3]

theorem ctrlWord_eq (s : State) : s.ctrlWord = if s.irqEn then 1 else 0 := by
  unfold State.ctrlWord flagBit
  cases s.irqEn <;> rfl

theorem resultWord_eq (s : State) : s.resultWord = if s.member then 1 else 0 := by
  unfold State.resultWord flagBit
  cases s.member <;> rfl

end Sys2Proof.Machine
end

