-- ==== Sys2Proof/Laws/PerInstr.lean ====
section
/-! SUPPORT. The per-instruction family EncodeDecode: a command's word decodes to the command, and its OPC is the one
of the opcode map (30_encoding.md R122, R123). -/

namespace Sys2Proof.Laws.EncodeDecode

/-- The command is well formed, its word decodes to it, and its word is below 256 (RSV is 0). -/
def Statement (i : Instr) : Prop := i.wellFormed = true ∧ decode (encode i) = .ok i ∧ (encode i).toNat < 256

theorem init : Statement .init := by unfold Statement; decide
theorem deinit : Statement .deinit := by unfold Statement; decide
theorem hash : Statement .hash := by unfold Statement; decide
theorem derive : Statement .derive := by unfold Statement; decide
theorem insert : Statement .insert := by unfold Statement; decide
theorem contains : Statement .contains := by unfold Statement; decide

end Sys2Proof.Laws.EncodeDecode
end

