-- ==== Sys2Proof/Laws/Step.lean ====
section
/-! SUPPORT. What one step can do, said once (60_exceptions.md R247), and the induction over runs. -/

namespace Sys2Proof.Machine

/-- Everything the host's step can do: its operation's effect on the block, with the answer, the draws and the script
moved on (60_exceptions.md R247 (a)). -/
theorem hostStep_cases (s : State) (op : HostOp) :
    ∃ t sc a d, WriteEffect { s with script := sc } t ∧ hostStep s op = { t with answer := some a, draws := d } := by
  have read : ∀ (u : State) addr n, ∃ a d, busRead u addr n = { u with answer := some a, draws := d } := by
    intro u addr n
    rcases busRead_cases u addr n with ⟨a, h⟩ | ⟨-, a, h⟩
    · exact ⟨a, u.draws, h⟩
    · exact ⟨a, u.draws + 1, h⟩
  cases op with
  | access ac =>
    cases ac with
    | read addr n =>
      obtain ⟨a, d, h⟩ := read s.advanceScript addr n
      exact ⟨s.advanceScript, s.script.tail, a, d, .nothing, h⟩
    | write addr n v =>
      obtain ⟨t, a, ht, h⟩ := busWrite_cases s.advanceScript addr n v
      exact ⟨t, s.script.tail, a, t.draws, ht, h⟩
  | wait =>
    obtain ⟨a, d, h⟩ := read s (Off.reg .status).value .word
    simp only [hostStep, waitRead, h]
    split
    · exact ⟨s, s.script, a, d, .nothing, rfl⟩
    · exact ⟨{ s with script := s.script.tail }, s.script.tail, a, d, .nothing, rfl⟩

/-- A host step that is no write leaves every flag (20_memory.md R93; 30_encoding.md R131). -/
theorem hostStep_flags (s : State) (op : HostOp) (h : ∀ addr n v, op ≠ .access (.write addr n v)) :
    (hostStep s op).done = s.done ∧ (hostStep s op).phase = s.phase ∧ (hostStep s op).ovr = s.ovr ∧
      (hostStep s op).irqEn = s.irqEn ∧ (hostStep s op).err = s.err ∧ (hostStep s op).inited = s.inited := by
  cases op with
  | access a =>
    cases a with
    | read addr n => exact busRead_flags s.advanceScript addr n
    | write addr n v => exact absurd rfl (h addr n v)
  | wait =>
    have hr := busRead_flags s (Off.reg .status).value .word
    unfold hostStep
    cases waitGoesOn (waitRead s) <;> exact hr

/-- The engine's move is enabled exactly when a command is in flight (R247 (b)). -/
theorem phase_of_nextMove_engine {s : State} {w : Word} (h : s.nextMove = .engine w) : s.phase = .busy w := by
  have he : ∀ {s : State}, s.engineMove = .engine w → s.phase = .busy w := by
    intro s h
    unfold State.engineMove at h
    split at h
    · simp at h
    · rename_i hp
      simp only [Move.engine.injEq] at h
      rw [hp, h]
  have hh : s.hostMove ≠ .engine w := by
    unfold State.hostMove
    split <;> simp
  unfold State.nextMove at h
  split at h
  · exact absurd h hh
  · exact he h
  · simp at h
  · split at h
    · exact he h
    · exact absurd h hh

theorem step_of_nextMove {s : State} {m : Move} (h : s.nextMove = m) : step s = perform s.advanceSchedule m := by
  rw [step, h]

/-- Everything a step can do (60_exceptions.md R247): a host step, a completion, a reset, or nothing. -/
theorem step_cases (s : State) :
    (∃ op, s.nextMove = .host op ∧ step s = .next (hostStep s.advanceSchedule op)) ∨
      (∃ w, s.nextMove = .engine w ∧ s.phase = .busy w ∧ step s = engineStep w s.advanceSchedule) ∨
      (s.nextMove = .reset ∧ step s = .next s.advanceSchedule.resetStep) ∨
      (s.nextMove = .idle ∧ step s = .next s.advanceSchedule) := by
  cases h : s.nextMove with
  | host op => exact .inl ⟨op, rfl, step_of_nextMove h⟩
  | engine w => exact .inr (.inl ⟨w, rfl, phase_of_nextMove_engine h, step_of_nextMove h⟩)
  | reset => exact .inr (.inr (.inl ⟨rfl, step_of_nextMove h⟩))
  | idle => exact .inr (.inr (.inr ⟨rfl, step_of_nextMove h⟩))

/-- A run of one step more takes the step and runs on. -/
theorem run_succ_of_step {s t : State} (h : step s = .next t) (n : Nat) :
    Host.Core.run Sys2Proof.core (n + 1) s = Host.Core.run Sys2Proof.core n t := by
  have generic : ∀ (M : Host.Core) (a b : M.State), M.step a = .next b → M.run (n + 1) a = M.run n b := by
    intro M a b hab
    simp only [Host.Core.run, hab]
  exact generic Sys2Proof.core s t h

/-- While busy `wait` reads STATUS and stays the next operation (30_encoding.md R131). -/
theorem hostStep_wait_of_busy {s : State} (hb : s.busy = true) :
    hostStep s .wait = s.answered (.data s.statusWord) := by
  unfold hostStep waitRead
  rw [busRead_reg]
  have hw : waitGoesOn (s.answered (.data (s.readReg .status))) = true := by
    show s.statusWord.getLsbD 0 = true
    rw [getLsbD_statusWord]
    simp [hb]
  simp only [hw, if_true]
  rfl

/-- While idle `wait` reads STATUS and ends (30_encoding.md R131). -/
theorem hostStep_wait_of_idle {s : State} (hb : s.busy = false) :
    hostStep s .wait = (s.answered (.data s.statusWord)).advanceScript := by
  unfold hostStep waitRead
  rw [busRead_reg]
  have hw : waitGoesOn (s.answered (.data (s.readReg .status))) = false := by
    show s.statusWord.getLsbD 0 = false
    rw [getLsbD_statusWord]
    simp [hb]
  simp only [hw, Bool.false_eq_true, if_false]
  rfl

/-- What every step keeps, every run keeps. -/
theorem Reaches.keeps {P : State → Prop} (hstep : ∀ s t, P s → step s = .next t → P t) {s t : State}
    (h : Reaches s t) (hs : P s) : P t := by
  induction h with
  | refl => exact hs
  | tail _ last ih => exact hstep _ _ ih last

/-- What every quiet step keeps, every quiet run keeps. -/
theorem QuietRun.keeps {P : State → Prop} (hstep : ∀ s t, P s → QuietStep s t → P t) {s t : State}
    (h : QuietRun s t) (hs : P s) : P t := by
  induction h with
  | refl => exact hs
  | tail _ last ih => exact hstep _ _ ih last

end Sys2Proof.Machine
end

