-- ==== Sys2Proof/Tests/Slice0.lean ====
section
/-! SUPPORT. Tests with expected values from spec/ (95_test_vectors.md, unless a comment names another file), the
smoke tests of well-formedness, and a witness for the hypotheses of every statement that has some. -/

open Sys2Proof Sys2Proof.Machine Sys2Proof.SpecForms

namespace Sys2Proof.Tests

/-! ### Small states -/

/-- The state an outcome goes on with. -/
def next? : Host.Outcome State Fault Refusal → Option State
  | .next s => some s
  | .fault _ => none
  | .refused _ => none

/-- A value of the state that a command leaves. -/
def afterExec (i : Instr) (s : State) {α : Type} (f : State → α) : Option α := (next? (exec i s)).map f

/-- A value of the state that a step leaves. -/
def afterStep (s : State) {α : Type} (f : State → α) : Option α := (next? (step s)).map f

/-- The cells of bytes that stand from address `a` on. -/
def cellsFrom : Nat → List Byte → List Host.Cell
  | _, [] => []
  | a, b :: rest => (a, b) :: cellsFrom (a + 1) rest

/-- `s` with these bytes as the element. -/
def withElement (s : State) (bytes : List Byte) : State :=
  { s with elem := { cleared := 0, cells := cellsFrom 0 bytes }, elemLen := BitVec.ofNat 32 bytes.length }

/-- `s` with element length `n`. -/
def withLength (s : State) (n : Word) : State := { s with elemLen := n }

/-- A filter of `size` bytes with hash count `k`, holding the bytes `bits` from byte 0 on, the rest 0. -/
def filter (size k : Word) (cells : List Host.Cell) : State :=
  { State.reset with inited := true, size := size, k := k, bits := { cleared := size.toNat, cells := cells } }

/-- A configuration to initialise with. -/
def configured (size k : Word) : State := { State.reset with cfgSize := size, cfgK := k }

/-- `s` with command word `w` in flight. -/
def busyWith (s : State) (w : Word) : State := s.accept w

/-- "test". -/
def test : List Byte := [0x74, 0x65, 0x73, 0x74]
/-- "hello". -/
def hello : List Byte := [0x68, 0x65, 0x6c, 0x6c, 0x6f]
/-- "Hello, world!". -/
def helloWorld : List Byte := [0x48, 0x65, 0x6c, 0x6c, 0x6f, 0x2c, 0x20, 0x77, 0x6f, 0x72, 0x6c, 0x64, 0x21]

/-- The filter that holds "test" at S = 16, k = 5 (vector I1). -/
def holdsTest : State := filter 16 5 [(0, 0x88), (1, 0x88)]

/-- Bytes 0 and 1 of the bit array. -/
def bits01 (s : State) : Byte × Byte := (s.bitsByte 0, s.bitsByte 1)

/-! ### Well-formedness: an ill-formed term of each check is refused -/

theorem test_wf_instr : Instr.wellFormed .contains = true := by decide
theorem test_wf_write_byte_too_wide : (Access.write 0x10000000 .byte 0x100).wellFormed = false := by decide
theorem test_wf_write_half_too_wide : (HostOp.access (.write 0x10000000 .half 0x10000)).wellFormed = false := by decide
theorem test_wf_write_fits : (Access.write 0x10000000 .byte 0xff).wellFormed = true := by decide
theorem test_wf_elem_offset : (Off.elem 0xF0000000).wellFormed = false := by decide
theorem test_wf_bits_offset : (Off.bits 0x80000000).wellFormed = false := by decide
theorem test_wf_line_offset : (Line.rd8 (.bits 0x80000000) none).wellFormed = false := by decide
theorem test_wf_elem_text_ascii : (Line.elemText ['é']).wellFormed = false := by decide
theorem test_wf_elem_too_many (bytes : List Byte) (h : bytes.length = 0xF0000001) :
    (Line.elem bytes).wellFormed = false := by simp [Line.wellFormed, elemWindow, h]
theorem test_wf_params_bitset_zero : ¬ Params.Legal { maxBitsetBytes := 0, maxElemBytes := 64, base := 0 } := by decide
theorem test_wf_params_bitset_large :
    ¬ Params.Legal { maxBitsetBytes := 2147483649, maxElemBytes := 64, base := 0 } := by decide
theorem test_wf_params_elem_zero : ¬ Params.Legal { maxBitsetBytes := 1, maxElemBytes := 0, base := 0 } := by decide
theorem test_wf_params_elem_large :
    ¬ Params.Legal { maxBitsetBytes := 1, maxElemBytes := 268435457, base := 0 } := by decide

/-! ### Decoding: RSV (24 bits) and OPC (8 bits) written out (30_encoding.md R120, R122; vectors C1 to C6) -/

theorem test_decode_init : decode 0b000000000000000000000000_00000001#32 = .ok .init := by decide
theorem test_decode_deinit : decode 0b000000000000000000000000_00000010#32 = .ok .deinit := by decide
theorem test_decode_hash : decode 0b000000000000000000000000_00000011#32 = .ok .hash := by decide
theorem test_decode_derive : decode 0b000000000000000000000000_00000100#32 = .ok .derive := by decide
theorem test_decode_insert : decode 0b000000000000000000000000_00000101#32 = .ok .insert := by decide
theorem test_decode_contains : decode 0b000000000000000000000000_00000110#32 = .ok .contains := by decide
theorem test_decode_opcode_zero : decode 0b000000000000000000000000_00000000#32 = .error .reservedOpcode := by decide
theorem test_decode_opcode_seven : decode 0b000000000000000000000000_00000111#32 = .error .reservedOpcode := by decide
theorem test_decode_opcode_ff : decode 0b000000000000000000000000_11111111#32 = .error .reservedOpcode := by decide
theorem test_decode_rsv_low : decode 0b000000000000000000000001_00000110#32 = .error .reservedBits := by decide
theorem test_decode_rsv_high : decode 0b000000110000000000000000_00000011#32 = .error .reservedBits := by decide
theorem test_decode_bytes : decodeBytes [0x05, 0x00, 0x00, 0x00] = .ok .insert := by decide
theorem test_decode_short : decodeBytes [0x05, 0x00] = .error .notOneWord := by decide
theorem test_decode_table_word : decodeTableWord 32 0x00000006 = some .contains := by decide

/-! ### The hash engine (vectors of section 2.1) -/

theorem test_hash_empty_seed_one : hash32 [] 1 = 0x514e28b7 := by decide
theorem test_hash_tail_high_byte : hash32 [0xff] 0 = 0xfd6cf10d := by decide
theorem test_hash_tail_order : hash32 [0x21, 0x43, 0x65] 0 = 0x7e4a8634 := by decide
theorem test_hash_block_order : hash32 [0x21, 0x43, 0x65, 0x87] 0 = 0xf55b516b := by decide
theorem test_hash_block_seed : hash32 [0x21, 0x43, 0x65, 0x87] 0x5082edee = 0x2362f9de := by decide
theorem test_hash_blocks_and_tail : hash32 helloWorld 0x9747b28c = 0x24884cba := by decide

/-- HASH of "test", seed 1 (program P2), and its STATUS. -/
theorem test_exec_hash :
    afterExec .hash { withElement State.reset test with seed := 1 } (fun t => (t.hashOut, t.statusWord)) =
      some (0x99c02ae2, 0x00000004) := by decide

/-- HASH with ELEM_LEN = 65 (60_exceptions.md R224): ERR 4, HASH_OUT unchanged. -/
theorem test_exec_hash_too_long :
    afterExec .hash { withLength State.reset 65 with hashOut := 7 } (fun t => (t.hashOut, t.statusWord)) =
      some (7, 0x00000404) := by decide

/-! ### The filter (vectors of sections 3.1 to 3.7) -/

/-- A2 and A7: position, slot and offset. -/
theorem test_address : (bitPosition 0xffffffff 1000, bitSlot 295, bitOffset 295, bitMask 7) = (295, 36, 7, 0x80) := by
  decide
theorem test_address_wide : (bitPosition 0xba6bd213 1024, bitSlot 531, bitOffset 531) = (531, 66, 3) := by decide

/-- D3: derived hashes 1 and 4 of "test", which wrap. -/
theorem test_derived_hash :
    (derivedHash 0xba6bd213 0x75a381ac 1, derivedHash 0xba6bd213 0x75a381ac 4) = (0x300f53bf, 0x90f9d8c3) := by
  decide

/-- N1, over a filter that holds something (N9). -/
theorem test_exec_init :
    afterExec .init { holdsTest with cfgSize := 16 } (fun t => (t.statusWord, t.size, t.k, bits01 t)) =
      some (0x00000006, 16, 5, 0, 0) := by decide

/-- N7: 1025 is too large; the filter stays. -/
theorem test_exec_init_too_large :
    afterExec .init { holdsTest with cfgSize := 1025 } (fun t => (t.statusWord, t.size, bits01 t)) =
      some (0x00000106, 16, 0x88, 0x88) := by decide

/-- X1. -/
theorem test_exec_deinit :
    afterExec .deinit { filter 1 1 [(0, 0x01)] with cfgK := 1, h1 := 9, member := true }
      (fun t => (t.statusWord, t.size, t.k, t.windowByte 0)) = some (0x00000004, 0, 0, 0) := by decide
theorem test_exec_deinit_keeps :
    afterExec .deinit { filter 1 1 [(0, 0x01)] with cfgK := 1, h1 := 9, member := true }
      (fun t => (t.cfgK, t.h1, t.resultWord, t.bitsByte 0)) = some (1, 9, 1, 0x01) := by decide

/-- D2: DERIVE of "a", whatever SEED holds. -/
theorem test_exec_derive :
    afterExec .derive { withElement State.reset [0x61] with seed := 0x9747b28c }
      (fun t => (t.h1, t.h2, t.statusWord)) = some (0x3c2569b2, 0x8935f798, 0x00000004) := by decide

/-- DERIVE with ELEM_LEN = 65: ERR 4, H1 unchanged. -/
theorem test_exec_derive_too_long :
    afterExec .derive { withLength State.reset 65 with h1 := 7 } (fun t => (t.h1, t.statusWord)) =
      some (7, 0x00000404) := by decide

/-- I8: "hello" into the filter that holds "test". -/
theorem test_exec_insert :
    afterExec .insert (withElement holdsTest hello) (fun t => (bits01 t, t.h1, t.h2)) =
      some ((0x88, 0x8f), 0x248bfa47, 0xa01540b1) := by decide

/-- I15: no filter comes before a too long element (60_exceptions.md R238). -/
theorem test_exec_insert_priority :
    afterExec .insert (withLength State.reset 65) (fun t => t.statusWord) = some 0x00000204 := by decide

/-- Q2: "a" is no member of the filter that holds "test". -/
theorem test_exec_contains_not :
    afterExec .contains { withElement holdsTest [0x61] with member := true } (fun t => (t.resultWord, t.h1, bits01 t)) =
      some (0, 0x3c2569b2, 0x88, 0x88) := by decide

/-- Q3: "x0" is a false positive. -/
theorem test_exec_contains_false_positive :
    afterExec .contains (withElement holdsTest [0x78, 0x30]) (fun t => (t.resultWord, t.statusWord)) =
      some (1, 0x00000006) := by decide

/-- C5 as a step: the word is run first from reset, and is illegal. -/
theorem test_step_illegal :
    afterStep (State.reset.withFetchWord 32 0x106) (fun t => (t.statusWord, t.phase)) =
      some (0x00000304, .idle) := by decide

/-! ### The bus (vectors of section 3.9) -/

/-- A filter of 14 bytes, all 0. -/
def filter14 : State := filter 14 5 []

theorem test_bus_id : (busRead filter14 0x000 .word).answer = some (.data 0x424c4631) := by decide
/-- B2. -/
theorem test_bus_max : ((busRead filter14 0x038 .word).answer, (busRead filter14 0x03C .word).answer) =
    (some (.data 0x00000400), some (.data 0x00000040)) := by decide
/-- B4. -/
theorem test_bus_ctrl : (busRead (busWrite filter14 0x004 .word 0xffffffff) 0x004 .word).answer =
    some (.data 0x00000001) := by decide
/-- B5 and B6. -/
theorem test_bus_bits_edge : (busRead (busWrite filter14 0x8000000C .word 0xaabbccdd) 0x8000000C .word).answer =
    some (.data 0x0000ccdd) := by decide
/-- B7 and B8: little-endian, and a half-word read. -/
theorem test_bus_little_endian :
    let s := busWrite filter14 0x80000001 .byte 0x5a
    ((busRead s 0x80000000 .word).answer, (busRead s 0x80000000 .half).answer) =
      (some (.data 0x00005a00), some (.data 0x5a00)) := by decide
/-- B9. -/
theorem test_bus_half_write :
    (busRead (busWrite (busWrite filter14 0x80000001 .byte 0x5a) 0x80000002 .half 0x1234) 0x80000000 .word).answer =
      some (.data 0x12345a00) := by decide
/-- B10, B11, B12, B13, B15. -/
theorem test_bus_errors :
    [busRead filter14 0x008 .half, busRead filter14 0x80000001 .word, busRead filter14 0x80000400 .word,
      busRead filter14 0x040 .word, busRead filter14 0xffc .word, busRead filter14 0x10000040 .word].map (·.answer) =
      List.replicate 6 (some .error) := by decide
/-- B14: the last word of the element window. -/
theorem test_bus_elem_last :
    (busRead (busWrite filter14 0x1000003C .word 0x01020304) 0x1000003C .word).answer =
      some (.data 0x01020304) := by decide
/-- B16. -/
theorem test_bus_read_only :
    (busRead (busWrite filter14 0x018 .word 5) 0x018 .word).answer = some (.data 0x0000000e) := by decide
/-- B18: write-1-to-clear of DONE. -/
theorem test_bus_status_w1c :
    (busWrite { filter14 with done := true, err := .invalidConfig } 0x008 .word 0x00000004).statusWord =
      0x00000102 := by decide
/-- B19. -/
theorem test_bus_status_all_ones :
    (busWrite { filter14 with done := true, ovr := true, err := .elemRange } 0x008 .word 0xffffffff).statusWord =
      0x00000402 := by decide
/-- B20: no filter, so the window reads 0 and ignores writes. -/
theorem test_bus_no_filter :
    (busRead (busWrite State.reset 0x80000000 .byte 0xff) 0x80000000 .byte).answer = some (.data 0x00) := by
  decide
/-- P5b: a write while busy is dropped and sets OVR; STATUS then shows BUSY, INIT and OVR. -/
theorem test_bus_write_while_busy :
    let s := busWrite (busyWith (withElement holdsTest test) 0x00000005) 0x024 .word 1
    (s.statusWord, s.elemLen) = (0x0000000b, 4) := by decide
/-- P5b: the command in flight then completes with DONE, INIT and OVR. -/
theorem test_busy_insert_completes :
    let s := busWrite (busyWith (withElement holdsTest test) 0x00000005) 0x024 .word 1
    afterStep s (fun t => (t.statusWord, t.h1, bits01 t)) = some (0x0000000e, 0xba6bd213, 0x88, 0x88) := by
  decide
/-- B21: with IRQ_EN a completion raises irq. -/
theorem test_irq : afterExec .deinit { filter14 with irqEn := true } (·.irq) = some true := by decide
/-- B22: OVR does not. -/
theorem test_irq_not_ovr :
    (busWrite (busyWith { filter14 with irqEn := true } 0x00000005) 0x010 .word 1).irq = false := by decide

/-! ### Scripts (30_encoding.md R130, R131) and reset (70_reset_and_hazards.md R262) -/

theorem test_line_run : Line.expand (.run .insert) = [.access (.write 0x0C .word 0x05), .wait] := by decide
theorem test_line_elem : Line.expand (.elemText ['a', 'b']) =
    [.access (.write 0x10000000 .byte 0x61), .access (.write 0x10000001 .byte 0x62), .access (.write 0x24 .word 2)] := by
  decide
theorem test_line_clrdone : Line.expand .clrdone = [.access (.write 0x08 .word 0x04)] := by decide
theorem test_line_offsets : (Line.expand (.wr16 (.bits 2) 0x1234), Line.expand (.rd8 (.elem 3) (some 7))) =
    ([.access (.write 0x80000002 .half 0x1234)], [.access (.read 0x10000003 .byte)]) := by decide
/-- A bus-error read returns 0, so it meets `-> 0` and no other value (20_memory.md R89). -/
theorem test_line_expect_bus_error :
    ((Line.rd32 (.num 0x040) (some 0)).expectMet .error, (Line.rd32 (.num 0x040) (some 1)).expectMet .error) =
      (true, false) := by decide
theorem test_line_expect :
    ((Line.rd8 (.bits 0) (some 0x88)).expectMet (.data 0x88), (Line.rd8 (.bits 0) (some 0x88)).expectMet (.data 0x8888),
      (Line.rd8 (.bits 0) none).expectMet (.data 1)) = (true, false, true) := by decide
/-- `wait` goes on while STATUS shows BUSY = 1. -/
theorem test_wait_goes_on :
    afterStep { busyWith State.reset 2 with script := [.wait], schedule := [.host] } (·.script) = some [.wait] := by
  decide
theorem test_wait_ends : afterStep { State.reset with script := [.wait] } (·.script) = some [] := by decide
/-- A reset abandons the command in flight. -/
theorem test_reset_step :
    afterStep { busyWith holdsTest 5 with schedule := [.reset] } (fun t => (t.statusWord, t.cfgK, t.phase, t.size)) =
      some (0, 5, .idle, 0) := by decide

/-! ### Witnesses: concrete states and operands that meet the hypotheses of each statement, clause by clause -/

/-- "test" in the element buffer, before a fresh filter of 16 bytes. -/
def readyToInsert : State := withElement (filter 16 5 []) test

/-- The command in flight is an INSERT of "test"; the host has one access to make, and may move next. -/
def insertInFlight : State :=
  { busyWith readyToInsert 0x00000005 with script := [.access (.write 0x024 .word 1)], schedule := [.host] }

/-- `insertInFlight` with the engine moving next. -/
def insertCompletes : State := { insertInFlight with schedule := [.engine] }

theorem readyToInsert_inv : readyToInsert.Inv where
  params := by decide
  filterOn := by decide
  filterOff := by decide
  busyNotDone := by decide
  bitsWf := by decide
  bitsWithin := by decide
  filterCleared := by decide
  clearedWithin := by decide
  elemWf := by decide
  elemWithin := by decide
  elemNotCleared := by decide

theorem test_witness_DecodeAndEncodeAgree :
    Instr.wellFormed .contains = true ∧ decode 0x00000005 = .ok .insert ∧ (6 : Nat) < 2 ^ 32 := by decide

/-- Illegal and legal opcodes at the ends of their ranges, and the two phases. -/
theorem test_witness_IllegalWordsCompleteWithIllegalCmd :
    [0x00, 0x07, 0xFF, 0x101, 0xFFFFFF06].map decode =
      [.error .reservedOpcode, .error .reservedOpcode, .error .reservedOpcode, .error .reservedBits,
        .error .reservedBits] ∧
    State.reset.phase = .idle ∧ (State.reset.withCommand 0x107).nextMove = .engine 0x107 := by decide

theorem test_witness_StepRunsTheDecodedCommand :
    insertCompletes.phase = .busy 0x00000005 ∧ decode 0x00000005 = .ok .insert ∧
      insertCompletes.schedule = .engine :: [] ∧ (busyWith State.reset 0x00000002).schedule = [] ∧
      decodeTableWord 32 0x00000002 = some .deinit := by decide

theorem test_witness_StepPerformsTheHostAccess :
    insertInFlight.script = .access (.write 0x024 .word 1) :: [] ∧ insertInFlight.schedule = .host :: [] ∧
      State.reset.schedule = [] ∧ State.reset.phase = .idle := by decide

theorem test_witness_NoStepIsStuck :
    insertInFlight.nextMove = .host (.access (.write 0x024 .word 1)) ∧
      insertCompletes.nextMove = .engine 0x00000005 := by decide

theorem test_witness_CommandWriteIsAccepted :
    State.reset.phase = .idle ∧ insertInFlight.phase = .busy 0x00000005 := by decide

/-- Both clauses of HASH and DERIVE, at 64 and 65 bytes. -/
theorem test_witness_HashCommand :
    (withLength State.reset 64).elemLen.toNat ≤ State.reset.params.maxElemBytes ∧
      State.reset.params.maxElemBytes < (withLength State.reset 65).elemLen.toNat := by decide

theorem test_witness_HashIsTheSpecsPseudocode : (3 : Nat) < 4 := by decide
theorem test_witness_HashOfEmptyElement : State.reset.elemLen = 0 ∧ State.reset.seed = 0 := by decide

theorem test_witness_DeriveCommand :
    (withLength State.reset 64).elemLen.toNat ≤ State.reset.params.maxElemBytes ∧
      State.reset.params.maxElemBytes < (withLength State.reset 65).elemLen.toNat := by decide

/-- INIT at both ends of the legal sizes. -/
theorem test_witness_InitCommand :
    (∀ s ∈ [configured 1 1, configured 1024 0xFFFFFFFF],
      1 ≤ s.cfgSize.toNat ∧ s.cfgSize.toNat ≤ s.params.maxBitsetBytes ∧ 1 ≤ s.cfgK.toNat) := by decide

theorem test_witness_FailingInitChangesNothing :
    (configured 0 5).cfgSize.toNat < 1 ∧ State.reset.params.maxBitsetBytes < (configured 1025 5).cfgSize.toNat ∧
      (configured 16 0).cfgK.toNat < 1 := by decide

theorem test_witness_InsertCommand :
    readyToInsert.inited = true ∧ readyToInsert.elemLen.toNat ≤ readyToInsert.params.maxElemBytes ∧
      (withLength readyToInsert 64).elemLen.toNat ≤ readyToInsert.params.maxElemBytes := by decide

theorem test_witness_ContainsCommand :
    holdsTest.inited = true ∧ (withLength holdsTest 64).elemLen.toNat ≤ holdsTest.params.maxElemBytes := by
  decide

theorem test_witness_MemberIsTheConjunction :
    holdsTest.inited = true ∧ holdsTest.elemLen.toNat ≤ holdsTest.params.maxElemBytes ∧
      ∃ t, exec .contains holdsTest = .next t := ⟨rfl, by decide, _, rfl⟩

/-- Each error of the order, and OK, by a command that reaches it (60_exceptions.md R238). -/
theorem test_witness_ErrorPriority :
    decode 0x00000007 = .error .reservedOpcode ∧ (∃ t, engineStep 0x00000007 State.reset = .next t) ∧
      decode 0x00000005 = .ok .insert ∧
      [engineStep 0x00000005 (withLength State.reset 65), engineStep 0x00000005 (withLength holdsTest 65),
        engineStep 0x00000001 State.reset, engineStep 0x00000006 holdsTest].map
        (fun o => (next? o).map (·.err)) =
        [some .useBeforeInit, some .elemRange, some .invalidConfig, some .ok] :=
  ⟨rfl, ⟨_, rfl⟩, rfl, by decide⟩

theorem test_witness_FailedCommandHasNoOtherEffect :
    ∃ t, engineStep 0x00000005 State.reset = .next t ∧ t.err ≠ .ok := ⟨_, rfl, by decide⟩

theorem test_witness_UseBeforeInit :
    State.reset.inited = false ∧ ∃ t, exec .derive State.reset = .next t := ⟨rfl, _, rfl⟩

theorem test_witness_TooLongElement :
    (withLength State.reset 65).params.maxElemBytes < (withLength State.reset 65).elemLen.toNat ∧
      (withLength holdsTest 65).params.maxElemBytes < (withLength holdsTest 65).elemLen.toNat ∧
      (withLength holdsTest 65).inited = true := by decide

/-- Each clause: a step that changes SIZE, HASH_OUT, H1, MEMBER. -/
theorem test_witness_ResultRegistersHaveTheirWriters :
    ((configured 16 5).withCommand 0x00000001).nextMove ≠ .reset ∧
    afterStep ((configured 16 5).withCommand 0x00000001) (·.size) = some 16 ∧
    afterStep ({ State.reset with seed := 1 }.withCommand 0x00000003) (·.hashOut) = some 0x514e28b7 ∧
    afterStep ((withElement State.reset [0x61]).withCommand 0x00000004) (·.h1) = some 0x3c2569b2 ∧
    afterStep ((withElement holdsTest test).withCommand 0x00000006) (·.member) = some true := by decide

/-- Each clause: a step that changes ERR, sets DONE and clears BUSY; that clears DONE, by a CMD and by a STATUS write; that
sets BUSY; that sets and that clears INIT; that sets and that clears OVR. -/
theorem test_witness_StatusFlagsHaveTheirWriters :
    afterStep (State.reset.withCommand 0x00000005) (fun t => (t.err, t.done, t.busy)) =
      some (.useBeforeInit, true, false) ∧
    afterStep { State.reset with done := true, script := [.access (.write 0x00C .word 7)] }
      (fun t => (t.done, t.busy)) = some (false, true) ∧
    afterStep { State.reset with done := true, script := [.access (.write 0x008 .word 4)] } (·.done) = some false ∧
    afterStep ((configured 16 5).withCommand 0x00000001) (fun t => (t.inited, t.err)) = some (true, .ok) ∧
    afterStep (holdsTest.withCommand 0x00000002) (·.inited) = some false ∧
    afterStep insertInFlight (·.ovr) = some true ∧
    afterStep { State.reset with ovr := true, script := [.access (.write 0x008 .word 8)] } (·.ovr) =
      some false ∧ insertInFlight.nextMove ≠ .reset := by decide

theorem test_witness_CommandsLeaveOperandsAndBuffers : ∃ t, exec .insert readyToInsert = .next t := ⟨_, rfl⟩

theorem test_witness_HostCannotDisturbTheCommandInFlight :
    insertInFlight.busy = true ∧ insertInFlight.nextMove = .host (.access (.write 0x024 .word 1)) ∧
      ∃ t, step insertInFlight = .next t := ⟨rfl, rfl, _, rfl⟩

theorem test_witness_ResultsDoNotDependOnTheSchedule : insertInFlight.phase = .busy 0x00000005 := by rfl

theorem test_witness_AddressedBitsAreBelowSize :
    (1 : Nat) ≤ 1 ∧ 1 ≤ readyToInsert.size.toNat ∧ (∃ t, exec .insert readyToInsert = .next t) ∧
      (∃ t, exec .contains readyToInsert = .next t) := ⟨by decide, by decide, ⟨_, rfl⟩, _, rfl⟩

theorem test_witness_InsertsOrTheUnionOfAddressedBits :
    (∀ e : List Byte, e ∈ [test, hello, test] ↔ e ∈ [hello, test]) ∧ readyToInsert.inited = true ∧
      readyToInsert.elemLen.toNat ≤ readyToInsert.params.maxElemBytes := by
  refine ⟨fun e => ?_, rfl, by decide⟩
  simp only [List.mem_cons, List.not_mem_nil, or_false]
  tauto

theorem test_witness_SetBitsNeverDecrease : ∃ t, exec .insert readyToInsert = .next t := ⟨_, rfl⟩

/-- `readyToInsert`, with a read of ID as the host's next access. -/
def insertThenRead : State := { readyToInsert with script := [.access (.read 0x000 .word)] }

theorem insertThenRead_inv : insertThenRead.Inv where
  params := by decide
  filterOn := by decide
  filterOff := by decide
  busyNotDone := by decide
  bitsWf := by decide
  bitsWithin := by decide
  filterCleared := by decide
  clearedWithin := by decide
  elemWf := by decide
  elemWithin := by decide
  elemNotCleared := by decide

/-- An INSERT, a quiet host step, and a CONTAINS of the same element. -/
theorem test_witness_NoFalseNegatives : ∃ t u v, insertThenRead.Inv ∧ exec .insert insertThenRead = .next t ∧
    t.err = .ok ∧ QuietRun t u ∧ u.element = insertThenRead.element ∧ exec .contains u = .next v ∧ v.err = .ok := by
  refine ⟨_, _, _, insertThenRead_inv, rfl, rfl, .tail (.refl _) (u := _) ⟨rfl, ?_, ?_, ?_⟩, rfl, rfl, rfl⟩
  · exact fun h => nomatch h
  · exact fun _ h => nomatch h
  · intro op _ p _ hb
    exact hb

theorem test_witness_SameElementSameAnswers :
    (∃ t, exec .derive readyToInsert = .next t ∧ t.err = .ok) ∧
      ∃ t, exec .contains readyToInsert = .next t ∧ t.err = .ok := ⟨⟨_, rfl, rfl⟩, _, rfl, rfl⟩

theorem test_witness_SaturatedFilterContainsEverything :
    (filter 1 1 [(0, 0xff)]).inited = true ∧ 1 ≤ (filter 1 1 [(0, 0xff)]).size.toNat ∧
      (∀ p, p < (filter 1 1 [(0, 0xff)]).size.toNat → (filter 1 1 [(0, 0xff)]).bitAt p = true) ∧
      (64 : Word).toNat ≤ (filter 1 1 [(0, 0xff)]).params.maxElemBytes := by decide

theorem test_witness_BoundaryFilter :
    (filter 1 1 []).inited = true ∧ (filter 1 1 []).size.toNat = 1 ∧ 1 ≤ (filter 1 1 []).k.toNat ∧
      (filter 1 1 []).bitsByte 0 = 0 ∧ (filter 1 1 []).elemLen.toNat ≤ (filter 1 1 []).params.maxElemBytes := by
  decide

theorem test_witness_EmptyElement : State.reset.elemLen = 0 ∧ (filter 16 5 []).elemLen = 0 ∧
    (filter 16 5 []).inited = true := by decide

theorem test_witness_FreshFilterContainsNothing :
    afterExec .init (configured 16 5) (·.err) = some .ok ∧ (64 : Word).toNat ≤ (configured 16 5).params.maxElemBytes := by
  decide

/-- Each error code is the code of some command's completion (60_exceptions.md R220). -/
theorem test_witness_RegisterReads : State.reset.params.Legal ∧ State.reset.err = .ok ∧
    afterExec .init State.reset (·.err) = some .invalidConfig ∧
    afterExec .insert State.reset (·.err) = some .useBeforeInit ∧
    afterStep (State.reset.withCommand 0) (·.err) = some .illegalCmd ∧
    afterExec .hash (withLength State.reset 65) (·.err) = some .elemRange := by decide

theorem test_witness_ControlRegister :
    (0xffffffff : Word).getLsbD 0 = true ∧ (0xfffffffe : Word).getLsbD 0 = false := by decide

theorem test_witness_ReadOnlyRegisters :
    (0x03C : Word) ∈ [(0x000 : Word), 0x018, 0x01C, 0x028, 0x02C, 0x030, 0x034, 0x038, 0x03C] := by decide

theorem test_witness_ConfigurationRegisters : State.reset.phase = .idle := by rfl

/-- Each clause: a completion that raises irq, a CTRL write that lets a set DONE through, and dropped writes
with OVR 0 and with OVR 1 before. -/
theorem test_witness_InterruptComesFromCompletion :
    ({ State.reset with irqEn := true }.withCommand 0x00000002).nextMove = .engine 0x00000002 ∧
    afterStep ({ State.reset with irqEn := true }.withCommand 0x00000002) (·.irq) = some true ∧
    afterStep { State.reset with done := true, script := [.access (.write 0x004 .word 1)] } (·.irq) = some true ∧
    afterStep insertInFlight (·.ovr) = some true ∧ insertInFlight.busy = true ∧
    { insertInFlight with ovr := true }.nextMove = .host (.access (.write 0x024 .word 1)) := by decide

/-- Bus errors at the ends of the windows. -/
theorem test_witness_BusErrors : State.reset.params.Legal ∧
    (∀ a ∈ [(0x040 : Word), 0xffc, 0x1000, 0x10000040, 0x80000400, 0x80000001],
      IsBusError State.reset.params a 4) ∧
    (∀ a ∈ [(0x03C : Word), 0x1000003C, 0x800003FC], ¬ IsBusError State.reset.params a 4) := by
  refine ⟨by decide, ?_, ?_⟩ <;>
    simp [IsBusError, windowEnd, State.reset, State.afterReset, Params.testVectors]

/-- Every class of address of the rule, by its first and last offset, while busy. -/
theorem test_witness_WritesWhileBusy : insertInFlight.params.Legal ∧ insertInFlight.busy = true ∧
    ∀ a ∈ [(0x004 : Word), 0x008, 0x000, 0x03C, 0x00C, 0x024, 0x10000000, 0x800003FC],
      ¬ IsBusError insertInFlight.params a 4 := by
  refine ⟨by decide, rfl, ?_⟩
  simp [IsBusError, windowEnd, insertInFlight, busyWith, State.accept, readyToInsert, withElement, filter, State.reset,
    State.afterReset, Params.testVectors]

theorem test_witness_ReadsHaveNoSideEffects :
    readyToInsert.busy = false ∧ (0x10000000 : Word).toNat < 0x80000000 ∧ readyToInsert.Inv ∧
      (0x10000000 : Word).toNat ≠ 0x008 ∧ (0x10000000 : Word).toNat ≠ 0x00C :=
  ⟨rfl, by decide, readyToInsert_inv, by decide, by decide⟩

/-- The first and the last place of each width. -/
theorem test_witness_ElementWindow : State.reset.params.Legal ∧ State.reset.phase = .idle ∧
    ∀ x ∈ [(Width.byte, 0), (Width.byte, 63), (Width.half, 62), (Width.word, 60)],
      x.2 % x.1.bytes = 0 ∧ x.2 + x.1.bytes ≤ State.reset.params.maxElemBytes := by decide

theorem test_witness_WordWriteIsTheHashBlock :
    State.reset.params.Legal ∧ (withLength State.reset 64).phase = .idle ∧
      4 * 15 + 4 ≤ (withLength State.reset 64).elemLen.toNat ∧
      4 * 15 + 4 ≤ State.reset.params.maxElemBytes := by decide

/-- The clauses meet inside one word at S = 14: bytes 12 and 13 are in the filter, 14 and 15 are not (vector B5). -/
theorem test_witness_BitArrayWindow : filter14.params.Legal ∧ filter14.phase = .idle ∧
    12 % Width.word.bytes = 0 ∧ 12 + Width.word.bytes ≤ filter14.params.maxBitsetBytes ∧ filter14.inited = true ∧
    12 + 1 < filter14.size.toNat ∧ ¬ (12 + 2 < filter14.size.toNat) := by decide

theorem test_witness_BusyBitArrayReadsAreFree : insertInFlight.params.Legal ∧ insertInFlight.busy = true ∧
    1020 % Width.word.bytes = 0 ∧ 1020 + Width.word.bytes ≤ insertInFlight.params.maxBitsetBytes := by decide

/-- The parameters at both ends of their ranges. -/
theorem test_witness_ResetValues :
    Params.Legal { maxBitsetBytes := 1, maxElemBytes := 1, base := 0 } ∧
      Params.Legal { maxBitsetBytes := 2147483648, maxElemBytes := 268435456, base := 0 } := by decide

theorem test_witness_ResetStep :
    ({ insertInFlight with schedule := [.reset] } : State).schedule = .reset :: [] := by rfl

theorem test_witness_AfterReset : Params.testVectors.Legal ∧ (64 : Word).toNat ≤ Params.testVectors.maxElemBytes ∧
    State.reset.phase = .idle ∧ ∃ t, step State.reset = .next t := ⟨by decide, by decide, rfl, _, rfl⟩

theorem test_witness_ResetMeetsTheInvariant : Params.testVectors.Legal := by decide

theorem test_witness_EveryStepKeepsTheInvariant :
    readyToInsert.Inv ∧ ∃ t, step readyToInsert = .next t := ⟨readyToInsert_inv, _, rfl⟩

/-- A filter of 16 bytes with a cleared prefix of 32, and byte 20 hidden behind it. -/
def hidden (v : Byte) : State :=
  { readyToInsert with bits := { cleared := 32, cells := if v = 0 then [] else [(20, v)] } }

theorem hidden_inv (v : Byte) (h : v = 0 ∨ v = 0xff) : (hidden v).Inv where
  params := by decide +revert
  filterOn := by rcases h with rfl | rfl <;> decide
  filterOff := by rcases h with rfl | rfl <;> decide
  busyNotDone := by rcases h with rfl | rfl <;> decide
  bitsWf := by rcases h with rfl | rfl <;> decide
  bitsWithin := by rcases h with rfl | rfl <;> decide
  filterCleared := by rcases h with rfl | rfl <;> decide
  clearedWithin := by rcases h with rfl | rfl <;> decide
  elemWf := by rcases h with rfl | rfl <;> decide
  elemWithin := by rcases h with rfl | rfl <;> decide
  elemNotCleared := by rcases h with rfl | rfl <;> decide

/-- Two different states that no host can tell apart. -/
theorem test_witness_HiddenBitArrayBytesNeverShow : hidden 0 ≠ hidden 0xff ∧ (hidden 0).Inv ∧ (hidden 0xff).Inv ∧
    SameVisible (hidden 0) (hidden 0xff) ∧ ∃ t, step (hidden 0) = .next t := by
  refine ⟨by decide, hidden_inv _ (.inl rfl), hidden_inv _ (.inr rfl), ⟨rfl, ?_⟩, _, rfl⟩
  have h : ∀ j, j < 16 → (hidden 0).bitsByte j = (hidden 0xff).bitsByte j := by decide
  intro j hj
  refine h j ?_
  have : (hidden 0).size.toNat = 16 := by decide
  simp only [State.inFilter, Bool.and_eq_true, decide_eq_true_eq] at hj
  omega

theorem test_witness_WaitEnds :
    let s : State := { busyWith State.reset 0x00000002 with script := [.wait], schedule := [.host, .host] }
    s.phase = .busy 0x00000002 ∧ s.script = .wait :: [] ∧ s.schedule = List.replicate 2 .host := by decide

theorem test_witness_ElemPseudoInstruction :
    let s : State := { State.reset with script := Line.expand (.elem test) }
    s.params.Legal ∧ test.length ≤ s.params.maxElemBytes ∧ s.phase = .idle ∧ s.schedule = [] ∧
      s.script = Line.expand (.elem test) ++ [] := by decide

end Sys2Proof.Tests
end

section
/-! The one inversion of `step` that the proofs about runs use: everything a step can do, with the state it leaves
(60_exceptions.md R232, R247). -/

namespace Sys2Proof.Machine

/-- Everything a step can do, with the state it leaves (60_exceptions.md R247): a host operation, a completion with an
error or with a command's writes (R232), a reset, or nothing. -/
inductive StepEffect (s : State) : State → Prop where
  | host (op : HostOp) (hmove : s.nextMove = .host op) : StepEffect s (hostStep s.advanceSchedule op)
  | failed (w : Word) (e : ErrorCode) (hmove : s.nextMove = .engine w) (he : e ≠ .ok) :
      StepEffect s (s.advanceSchedule.complete e)
  | succeeded (w : Word) (i : Instr) (u : State) (hmove : s.nextMove = .engine w) (hdecode : decode w = .ok i)
      (hwrites : Succeeds i s.advanceSchedule u) : StepEffect s (u.complete .ok)
  | reset (hmove : s.nextMove = .reset) : StepEffect s s.advanceSchedule.resetStep
  | idle (hmove : s.nextMove = .idle) : StepEffect s s.advanceSchedule

theorem stepEffect_of_step {s t : State} (h : step s = .next t) : StepEffect s t := by
  have next_inj : ∀ {u : State}, step s = .next u → u = t := fun hu => by rw [h] at hu; cases hu; rfl
  rcases step_cases s with ⟨op, hmove, hs⟩ | ⟨w, hmove, -, hs⟩ | ⟨hmove, hs⟩ | ⟨hmove, hs⟩
  · cases next_inj hs
    exact .host op hmove
  · rcases engineStep_cases w s.advanceSchedule with ⟨e, he, hw⟩ | ⟨i, u, hdecode, hwrites, hw⟩
    · cases next_inj (hs.trans hw)
      exact .failed w e hmove he
    · cases next_inj (hs.trans hw)
      exact .succeeded w i u hmove hdecode hwrites
  · cases next_inj hs
    exact .reset hmove
  · cases next_inj hs
    exact .idle hmove

end Sys2Proof.Machine
end

section
/-! The invariant holds after reset and every step keeps it: one lemma per operation of the block. -/

namespace Sys2Proof.Machine

theorem State.afterReset_inv {p : Params} (hp : p.Legal) (script : List HostOp) (schedule : List Mover)
    (epoch draws : Nat) : (State.afterReset p script schedule epoch draws).Inv where
  params := hp
  filterOn := by simp [State.afterReset]
  filterOff _ := ⟨rfl, rfl⟩
  busyNotDone _ := rfl
  bitsWf := Memory.wf_unwritten
  bitsWithin := Memory.within_unwritten _
  filterCleared := Nat.le_refl 0
  clearedWithin := Nat.zero_le _
  elemWf := Memory.wf_unwritten
  elemWithin := Memory.within_unwritten _
  elemNotCleared := rfl

/-- Settles O53: after reset there is no filter, the engine is idle and nothing is listed. -/
theorem resetMeetsTheInvariant : Obligations.ResetMeetsTheInvariant :=
  ⟨State.afterReset_inv (by decide) [] [] 0 0, fun _ script schedule epoch draws hp =>
    State.afterReset_inv hp script schedule epoch draws⟩

/-- The invariant does not speak of the answer, the draws and the inputs (log entries 1, 4, 8). -/
theorem State.Inv.setInputs {s : State} (h : s.Inv) (answer : Option Answer) (script : List HostOp)
    (schedule : List Mover) (draws : Nat) :
    State.Inv { s with answer := answer, script := script, schedule := schedule, draws := draws } :=
  { h with }

theorem State.Inv.advanceSchedule {s : State} (h : s.Inv) : s.advanceSchedule.Inv :=
  h.setInputs s.answer s.script s.schedule.tail s.draws

/-- A completion is idle with DONE set (60_exceptions.md R232). -/
theorem State.Inv.complete {s : State} (h : s.Inv) (e : ErrorCode) : (s.complete e).Inv :=
  { h with busyNotDone := fun hbusy => by simp [State.complete, State.busy, Phase.isBusy] at hbusy }

/-- A byte of the active filter lies below SIZE, so inside the cleared prefix (20_memory.md R87). -/
theorem State.Inv.lt_cleared_of_inFilter {s : State} (h : s.Inv) {j : Nat} (hj : s.inFilter j = true) :
    j < s.bits.cleared := by
  have hlt : j < s.size.toNat := by
    simp only [State.inFilter, Bool.and_eq_true, decide_eq_true_eq] at hj
    exact hj.2
  exact Nat.lt_of_lt_of_le hlt h.filterCleared

/-- No bus write breaks the invariant: acceptance clears DONE, and the RAM writes stay in their bounds
(20_memory.md R86, R87; 60_exceptions.md R230). -/
theorem WriteEffect.inv {s t : State} (he : WriteEffect s t) (h : s.Inv) : t.Inv := by
  cases he with
  | nothing => exact h
  | ctrl w => exact { h with }
  | status w => exact { h with busyNotDone := fun hbusy => by simp [h.busyNotDone hbusy] }
  | dropped _ => exact { h with }
  | accepted _ w => exact { h with busyNotDone := fun _ => rfl }
  | cfgSize _ w => exact { h with }
  | cfgK _ w => exact { h with }
  | seed _ w => exact { h with }
  | elemLen _ w => exact { h with }
  | elem _ i n v hi =>
    exact { h with
      elemWf := writeElemBytes_wf i v n h.elemWf
      elemWithin := writeElemBytes_within v hi h.elemWithin
      elemNotCleared := (writeElemBytes_cleared s.elem i v n).trans h.elemNotCleared }
  | bits _ j n v _ =>
    have hcleared := writeBitsBytes_cleared s.inFilter s.bits j v n
    exact { h with
      bitsWf := writeBitsBytes_wf s.inFilter j v n h.bitsWf
      bitsWithin := hcleared.symm ▸ writeBitsBytes_within v (fun _ => h.lt_cleared_of_inFilter) h.bitsWithin
      filterCleared := hcleared.symm ▸ h.filterCleared
      clearedWithin := hcleared.symm ▸ h.clearedWithin }

theorem State.Inv.hostStep {s : State} (h : s.Inv) (op : HostOp) : (hostStep s op).Inv := by
  obtain ⟨t, script, a, draws, he, ht⟩ := hostStep_cases s op
  rw [ht]
  have hmoved := h.setInputs s.answer script s.schedule s.draws
  exact (he.inv hmoved).setInputs (some a) t.script t.schedule draws

/-- No command's writes break the invariant: INIT makes a legal filter and clears all of it, DEINIT leaves SIZE and K
0, INSERT writes below SIZE (41_filter.md R180, R185, R195). -/
theorem Succeeds.inv {i : Instr} {s t : State} (hs : Succeeds i s t) (h : s.Inv) : t.Inv := by
  cases hs with
  | init _ hgood =>
    obtain ⟨hsize, hmax, hk⟩ := (State.badConfig_false_iff s).1 hgood
    exact { h with
      filterOn := fun _ => ⟨hsize, hmax, hk⟩
      filterOff := fun hoff => by simp at hoff
      bitsWf := Memory.wf_clear _ h.bitsWf
      bitsWithin := Memory.within_mono (Memory.within_clear h.bitsWithin) (Nat.le_max_left _ _)
      filterCleared := Nat.le_max_right _ _
      clearedWithin := Nat.max_le.2 ⟨h.clearedWithin, hmax⟩ }
  | deinit =>
    exact { h with
      filterOn := fun hon => by simp at hon
      filterOff := fun _ => ⟨rfl, rfl⟩
      filterCleared := Nat.zero_le _ }
  | hash => exact { h with }
  | derive => exact { h with }
  | insert _ hinit _ =>
    obtain ⟨hsize, -, -⟩ := h.filterOn hinit
    have hcleared := insertBits_cleared s.epoch s.size.toNat (digest1 s.element) (digest2 s.element) s.bits s.k.toNat
    exact { h with
      bitsWf := insertBits_wf _ _ _ _ _ h.bitsWf
      bitsWithin := hcleared.symm ▸ insertBits_within _ _ _ _ hsize h.filterCleared h.bitsWithin
      filterCleared := hcleared.symm ▸ h.filterCleared
      clearedWithin := hcleared.symm ▸ h.clearedWithin }
  | contains => exact { h with }

/-- Settles O54, by what a step can do: each kind of step keeps the invariant by its own lemma. -/
theorem everyStepKeepsTheInvariant : Obligations.EveryStepKeepsTheInvariant := by
  intro s t h hstep
  cases stepEffect_of_step hstep with
  | host op _ => exact h.advanceSchedule.hostStep op
  | failed w e _ _ => exact h.advanceSchedule.complete e
  | succeeded w i u _ _ hwrites => exact (hwrites.inv h.advanceSchedule).complete .ok
  | reset _ => exact State.afterReset_inv h.params _ _ _ _
  | idle _ => exact h.advanceSchedule

end Sys2Proof.Machine
end

section
/-! Which step may change which field: the result registers, the flags of STATUS, and what the commands leave. -/

namespace Sys2Proof.Machine

/-- The commands leave their operands, the host's registers and, but for INIT and INSERT, the bit array
(10_state.md R48, R50; 30_encoding.md R121). -/
theorem Succeeds.frame {i : Instr} {s t : State} (h : Succeeds i s t) :
    t.elem = s.elem ∧ t.cfgSize = s.cfgSize ∧ t.cfgK = s.cfgK ∧ t.seed = s.seed ∧ t.elemLen = s.elemLen ∧
      t.irqEn = s.irqEn ∧ t.ovr = s.ovr ∧ t.params = s.params ∧
      (i ≠ .init → i ≠ .insert → t.bits = s.bits) := by
  cases h <;> simp

/-- Settles O25: a command fails with no effect but its completion, or makes its own writes before it. -/
theorem commandsLeaveOperandsAndBuffers : Obligations.CommandsLeaveOperandsAndBuffers := by
  intro i s t hexec
  rcases exec_cases i s with ⟨e, -, h⟩ | ⟨u, hwrites, h⟩
  · cases h.symm.trans hexec
    simp
  · cases h.symm.trans hexec
    exact hwrites.frame

/-- The registers and the flag that only commands write are kept (10_state.md R38, R39, R42 to R45). -/
structure SameResults (s t : State) : Prop where
  size : t.size = s.size
  k : t.k = s.k
  inited : t.inited = s.inited
  hashOut : t.hashOut = s.hashOut
  h1 : t.h1 = s.h1
  h2 : t.h2 = s.h2
  member : t.member = s.member

theorem WriteEffect.sameResults {s t : State} (h : WriteEffect s t) : SameResults s t := by
  cases h <;> constructor <;> rfl

theorem hostStep_sameResults (s : State) (op : HostOp) : SameResults s (hostStep s op) := by
  obtain ⟨t, script, a, draws, he, ht⟩ := hostStep_cases s op
  rw [ht]
  exact { he.sameResults with }

/-- The statement of O23 on a step that keeps every result. -/
theorem SameResults.writers {s t : State} (h : SameResults s t) {P Q R S : Prop} :
    ((t.size ≠ s.size ∨ t.k ≠ s.k ∨ t.inited ≠ s.inited) → P) ∧ (t.hashOut ≠ s.hashOut → Q) ∧
      ((t.h1 ≠ s.h1 ∨ t.h2 ≠ s.h2) → R) ∧ (t.member ≠ s.member → S) := by
  simp [h.size, h.k, h.inited, h.hashOut, h.h1, h.h2, h.member]

/-- Settles O23, by what a step can do: only a command that succeeds changes a result, and each of the six only its
own. -/
theorem resultRegistersHaveTheirWriters : Obligations.ResultRegistersHaveTheirWriters := by
  intro s t hstep hreset
  cases stepEffect_of_step hstep with
  | host op _ =>
    have hsame := hostStep_sameResults s.advanceSchedule op
    exact SameResults.writers { hsame with }
  | failed w e _ _ => exact SameResults.writers ⟨rfl, rfl, rfl, rfl, rfl, rfl, rfl⟩
  | succeeded w i u hmove hdecode hwrites => cases hwrites <;> simp [hmove, hdecode]
  | reset hmove => exact absurd hmove hreset
  | idle _ => exact SameResults.writers ⟨rfl, rfl, rfl, rfl, rfl, rfl, rfl⟩

/-! The flags of STATUS under one bus write: who clears DONE, who sets BUSY, who sets and who clears OVR. -/

section
variable {s : State} {addr : Word} {n : Width} {v : Word}

theorem done_of_busWrite_done (h : (busWrite s addr n v).done = true) : s.done = true := by
  obtain ⟨hdone, -⟩ := busWrite_flags s addr n v
  rcases hdone with hkept | ⟨-, -, hcleared⟩ | ⟨-, -, -, hcleared, -⟩
  · rwa [← hkept]
  · rw [hcleared] at h
    exact (Bool.and_eq_true_iff.1 h).1
  · simp [hcleared] at h

theorem busWrite_clears_done (ht : (busWrite s addr n v).done = false) (hs : s.done = true) :
    n = .word ∧ ((addr.toNat = 0x00C ∧ s.busy = false ∧ (busWrite s addr n v).phase = .busy v) ∨
      (addr.toNat = 0x008 ∧ v.getLsbD 2 = true)) := by
  obtain ⟨hdone, -⟩ := busWrite_flags s addr n v
  rcases hdone with hkept | ⟨hn, haddr, hcleared⟩ | ⟨hn, haddr, hidle, -, hphase⟩
  · simp [hkept, hs] at ht
  · exact ⟨hn, .inr ⟨haddr, by simpa [hcleared, hs] using ht⟩⟩
  · exact ⟨hn, .inl ⟨haddr, hidle, hphase⟩⟩

theorem not_busy_of_busWrite_not_busy (ht : (busWrite s addr n v).busy = false) : s.busy = false := by
  obtain ⟨-, hphase, -⟩ := busWrite_flags s addr n v
  rcases hphase with hkept | ⟨-, -, hidle, -⟩
  · rwa [State.busy, hkept] at ht
  · exact hidle

theorem busWrite_sets_busy (ht : (busWrite s addr n v).busy = true) (hs : s.busy = false) :
    n = .word ∧ addr.toNat = 0x00C ∧ (busWrite s addr n v).phase = .busy v := by
  obtain ⟨-, hphase, -⟩ := busWrite_flags s addr n v
  rcases hphase with hkept | ⟨hn, haddr, -, hbusy⟩
  · rw [State.busy, hkept] at ht
    exact absurd ht (by simpa [State.busy] using hs)
  · exact ⟨hn, haddr, hbusy⟩

theorem busWrite_sets_ovr (ht : (busWrite s addr n v).ovr = true) (hs : s.ovr = false) : s.busy = true := by
  obtain ⟨-, -, hovr, -⟩ := busWrite_flags s addr n v
  rcases hovr with hkept | ⟨hbusy, -⟩ | ⟨-, -, hcleared⟩
  · simp [hkept, hs] at ht
  · exact hbusy
  · simp [hcleared, hs] at ht

theorem busWrite_clears_ovr (ht : (busWrite s addr n v).ovr = false) (hs : s.ovr = true) :
    n = .word ∧ addr.toNat = 0x008 ∧ v.getLsbD 3 = true := by
  obtain ⟨-, -, hovr, -⟩ := busWrite_flags s addr n v
  rcases hovr with hkept | ⟨-, hset, -⟩ | ⟨hn, haddr, hcleared⟩
  · simp [hkept, hs] at ht
  · simp [hset] at ht
  · exact ⟨hn, haddr, by simpa [hcleared, hs] using ht⟩

end

/-- The conclusion of O24 for one pair of states. -/
def FlagWriters (s t : State) : Prop :=
  (t.err ≠ s.err → ∃ w, s.nextMove = .engine w) ∧
  (s.done = false → t.done = true → ∃ w, s.nextMove = .engine w) ∧
  (s.done = true → t.done = false →
    ∃ addr w, s.nextMove = .host (.access (.write addr .word w)) ∧
      ((addr.toNat = 0x00C ∧ s.busy = false ∧ t.phase = .busy w) ∨ (addr.toNat = 0x008 ∧ w.getLsbD 2 = true))) ∧
  (s.busy = true → t.busy = false → ∃ w, s.nextMove = .engine w) ∧
  (s.busy = false → t.busy = true →
    ∃ addr w, s.nextMove = .host (.access (.write addr .word w)) ∧ addr.toNat = 0x00C ∧ t.phase = .busy w) ∧
  (s.inited = false → t.inited = true →
    ∃ w, s.nextMove = .engine w ∧ decode w = .ok .init ∧ t.err = .ok) ∧
  (s.inited = true → t.inited = false → ∃ w, s.nextMove = .engine w ∧ decode w = .ok .deinit) ∧
  (s.ovr = false → t.ovr = true →
    s.busy = true ∧ ∃ addr n w, s.nextMove = .host (.access (.write addr n w))) ∧
  (s.ovr = true → t.ovr = false →
    ∃ addr w, s.nextMove = .host (.access (.write addr .word w)) ∧ addr.toNat = 0x008 ∧ w.getLsbD 3 = true)

/-- The flags of STATUS and the phase are kept (10_state.md R34, R55). -/
structure SameFlags (s t : State) : Prop where
  done : t.done = s.done
  phase : t.phase = s.phase
  ovr : t.ovr = s.ovr
  err : t.err = s.err
  inited : t.inited = s.inited

theorem SameFlags.busy {s t : State} (h : SameFlags s t) : t.busy = s.busy := congrArg Phase.isBusy h.phase

/-- A step that keeps every flag and the phase needs no writer. -/
theorem SameFlags.flagWriters {s t : State} (h : SameFlags s t) : FlagWriters s t := by
  unfold FlagWriters
  rw [h.done, h.busy, h.ovr, h.err, h.inited]
  simp +contextual

/-- A bus write, from a state that has moved on in the script and the schedule only. -/
theorem SameFlags.flagWriters_busWrite {s u : State} (h : SameFlags s u) {addr : Word} {n : Width} {v : Word}
    (hmove : s.nextMove = .host (.access (.write addr n v))) : FlagWriters s (busWrite u addr n v) := by
  obtain ⟨-, -, -, -, herr, hinited⟩ := busWrite_flags u addr n v
  unfold FlagWriters
  rw [← h.done, ← h.busy, ← h.ovr, ← h.err, ← h.inited]
  refine ⟨fun hne => absurd herr hne, fun hu ht => ?_, fun hu ht => ?_, fun hu ht => ?_, fun hu ht => ?_,
    fun hu ht => ?_, fun hu ht => ?_, fun hu ht => ?_, fun hu ht => ?_⟩
  · simp [done_of_busWrite_done ht] at hu
  · obtain ⟨rfl, hwhy⟩ := busWrite_clears_done ht hu
    exact ⟨addr, v, hmove, hwhy⟩
  · simp [not_busy_of_busWrite_not_busy ht] at hu
  · obtain ⟨rfl, hwhy⟩ := busWrite_sets_busy ht hu
    exact ⟨addr, v, hmove, hwhy⟩
  · simp [hinited, hu] at ht
  · simp [hinited, hu] at ht
  · exact ⟨busWrite_sets_ovr ht hu, addr, n, v, hmove⟩
  · obtain ⟨rfl, hwhy⟩ := busWrite_clears_ovr ht hu
    exact ⟨addr, v, hmove, hwhy⟩

/-- A completion ends idle with DONE set and keeps OVR; it answers for ERR, DONE, BUSY and INIT
(60_exceptions.md R232). -/
theorem flagWriters_of_complete {s u : State} {w : Word} {e : ErrorCode} (hmove : s.nextMove = .engine w)
    (hovr : u.ovr = s.ovr) (hset : s.inited = false → u.inited = true → decode w = .ok .init ∧ e = .ok)
    (hclear : s.inited = true → u.inited = false → decode w = .ok .deinit) : FlagWriters s (u.complete e) := by
  have hidle : (u.complete e).busy = false := rfl
  refine ⟨fun _ => ⟨w, hmove⟩, fun _ _ => ⟨w, hmove⟩, fun _ ht => ?_, fun _ _ => ⟨w, hmove⟩, fun _ ht => ?_,
    fun hs ht => ⟨w, hmove, hset hs ht⟩, fun hs ht => ⟨w, hmove, hclear hs ht⟩, fun hs ht => ?_, fun hs ht => ?_⟩
  · simp at ht
  · simp [hidle] at ht
  · simp [hovr, hs] at ht
  · simp [hovr, hs] at ht

/-- Only INIT sets INIT and only DEINIT clears it (41_filter.md R180, R185). -/
theorem Succeeds.inited_writers {i : Instr} {s t : State} (h : Succeeds i s t) :
    (s.inited = false → t.inited = true → i = .init) ∧ (s.inited = true → t.inited = false → i = .deinit) := by
  cases h <;> simp +contextual

/-- Settles O24, by what a step can do: a bus write, another host operation, a completion, or nothing. -/
theorem statusFlagsHaveTheirWriters : Obligations.StatusFlagsHaveTheirWriters := by
  intro s t hstep hreset
  show FlagWriters s t
  cases stepEffect_of_step hstep with
  | host op hmove =>
    by_cases hw : ∃ addr n v, op = .access (.write addr n v)
    · obtain ⟨addr, n, v, rfl⟩ := hw
      have hmoved : SameFlags s s.advanceSchedule.advanceScript := ⟨rfl, rfl, rfl, rfl, rfl⟩
      exact hmoved.flagWriters_busWrite hmove
    · obtain ⟨hdone, hphase, hovr, -, herr, hinited⟩ :=
        hostStep_flags s.advanceSchedule op fun addr n v heq => hw ⟨addr, n, v, heq⟩
      exact SameFlags.flagWriters ⟨hdone, hphase, hovr, herr, hinited⟩
  | failed w e hmove _ => exact flagWriters_of_complete hmove rfl (by simp +contextual) (by simp +contextual)
  | succeeded w i u hmove hdecode hwrites =>
    obtain ⟨-, -, -, -, -, -, hovr, -, -⟩ := hwrites.frame
    obtain ⟨hset, hclear⟩ := hwrites.inited_writers
    exact flagWriters_of_complete hmove hovr (fun hs hu => ⟨hset hs hu ▸ hdecode, rfl⟩)
      fun hs hu => hclear hs hu ▸ hdecode
  | reset hmove => exact absurd hmove hreset
  | idle _ => exact SameFlags.flagWriters ⟨rfl, rfl, rfl, rfl, rfl⟩

end Sys2Proof.Machine
end

section
/-! The register window: what each register answers to a read and does at a write (10_state.md R32 to R47, R53). -/

namespace Sys2Proof.Machine

/-- Bits 11:8 of `STATUS` are the error code (10_state.md R34). -/
theorem statusWord_err (s : State) : s.statusWord.extractLsb' 8 4 = s.err.code := by
  apply BitVec.eq_of_getLsbD_eq
  intro b hb
  rw [BitVec.getLsbD_extractLsb', getLsbD_statusWord]
  interval_cases b <;> simp

/-- Bits 7:4 of `STATUS` are reserved and read 0 (10_state.md R34). -/
theorem statusWord_reserved_low (s : State) : s.statusWord.extractLsb' 4 4 = 0 := by
  apply BitVec.eq_of_getLsbD_eq
  intro b hb
  rw [BitVec.getLsbD_extractLsb', getLsbD_statusWord]
  interval_cases b <;> simp

/-- Bits 31:12 of `STATUS` are reserved and read 0 (10_state.md R34). -/
theorem statusWord_reserved_high (s : State) : s.statusWord.extractLsb' 12 20 = 0 := by
  apply BitVec.eq_of_getLsbD_eq
  intro b hb
  rw [BitVec.getLsbD_extractLsb', getLsbD_statusWord]
  have hcode : s.err.code.getLsbD (12 + b - 8) = false := BitVec.getLsbD_of_ge _ _ (by omega)
  have hne : ∀ i, i < 12 → 12 + b ≠ i := by omega
  simp [hcode, hne]

/-- Settles O37: each offset is its register's, and a legal capacity fits in a word. -/
theorem registerReads : Obligations.RegisterReads := by
  intro s hlegal
  obtain ⟨⟨-, hbits⟩, -, helem⟩ := hlegal
  have hctrl := busRead_reg s .ctrl
  have hresult := busRead_reg s .result
  simp only [State.readReg, ctrlWord_eq, resultWord_eq] at hctrl hresult
  have hstatus : ∀ e, s.err = e → s.statusWord.extractLsb' 8 4 = e.code := fun e he => he ▸ statusWord_err s
  refine ⟨busRead_reg s .id, hctrl, ⟨s.statusWord, busRead_reg s .status, ?_, ?_, ?_, ?_, statusWord_reserved_low s,
      statusWord_reserved_high s, hstatus .ok, hstatus .invalidConfig, hstatus .useBeforeInit, hstatus .illegalCmd,
      hstatus .elemRange⟩,
    busRead_reg s .cmd, busRead_reg s .cfgSize, busRead_reg s .cfgK, busRead_reg s .size, busRead_reg s .k,
    busRead_reg s .seed, busRead_reg s .elemLen, busRead_reg s .hashOut, busRead_reg s .h1, busRead_reg s .h2,
    hresult, ⟨_, busRead_reg s .maxSize, ?_⟩, ⟨_, busRead_reg s .maxElem, ?_⟩⟩
  · exact (getLsbD_statusWord s 0).trans (by simp)
  · exact (getLsbD_statusWord s 1).trans (by simp)
  · exact (getLsbD_statusWord s 2).trans (by simp)
  · exact (getLsbD_statusWord s 3).trans (by simp)
  · exact Nat.mod_eq_of_lt (by omega)
  · exact Nat.mod_eq_of_lt (by omega)

/-- Write-1-to-clear of one flag (10_state.md R34). -/
theorem and_not_eq_ite (f b : Bool) : (f && !b) = if b then false else f := by
  cases b <;> simp

/-- Settles O38: the write reaches STATUS, whose write-1-to-clear is that of `State.writeStatus`. -/
theorem statusWriteOneToClear : Obligations.StatusWriteOneToClear := by
  intro s w
  have h := busWrite_reg s .status w
  simp only [State.writeReg, State.writeStatus, and_not_eq_ite] at h
  exact h

theorem busRead_reg_answer (s : State) (r : Reg) :
    (busRead s (Off.reg r).value .word).answer = some (.data (s.readReg r)) := by
  rw [busRead_reg, State.answered_answer]

/-- Settles O39: CTRL reads back bit 0 of what was written, and that bit gates DONE. -/
theorem controlRegister : Obligations.ControlRegister := by
  refine ⟨by decide, fun s w => ⟨_, busWrite_reg s .ctrl w, rfl, ?_, fun h => ?_, fun h => ?_⟩⟩
  · have hword : ((s.writeReg .ctrl w).answered .done).readReg .ctrl = w &&& 1 := by
      show State.ctrlWord _ = w &&& 1#32
      have hbit : ((s.writeReg .ctrl w).answered .done).irqEn = w.getLsbD 0 := rfl
      rw [ctrlWord_eq, hbit, BitVec.and_one_eq_setWidth_ofBool_getLsbD]
      cases w.getLsbD 0 <;> rfl
    exact hword ▸ busRead_reg_answer _ .ctrl
  · show (w.getLsbD 0 && s.done) = s.done
    rw [h, Bool.true_and]
  · show (w.getLsbD 0 && s.done) = false
    rw [h, Bool.false_and]

/-- Settles O40: the nine offsets are those of the registers that `State.writeReg` leaves. -/
theorem readOnlyRegisters : Obligations.ReadOnlyRegisters := by
  refine ⟨fun s w => ?_, fun s => busRead_reg s .cmd⟩
  simp only [List.forall_mem_cons, List.not_mem_nil, false_implies, implies_true, and_true]
  exact ⟨busWrite_reg s .id w, busWrite_reg s .size w, busWrite_reg s .k w, busWrite_reg s .hashOut w,
    busWrite_reg s .h1 w, busWrite_reg s .h2 w, busWrite_reg s .result w, busWrite_reg s .maxSize w,
    busWrite_reg s .maxElem w⟩

/-- An idle write to an idle-only register is not dropped (20_memory.md R95). -/
theorem busWrite_reg_of_idle {s u : State} {r : Reg} {w : Word} (hidle : s.busy = false)
    (hset : s.writeReg r w = s.unlessBusy u) : busWrite s (Off.reg r).value .word w = u.answered .done := by
  rw [busWrite_reg, hset, State.unlessBusy_of_idle u hidle]

/-- Settles O41: an idle write is not dropped, so it sets its register and nothing else. -/
theorem configurationRegisters : Obligations.ConfigurationRegisters := by
  intro s w hphase
  have hidle : s.busy = false := (State.not_busy_iff s).2 hphase
  have hsize : busWrite s 0x010 .word w = { s with cfgSize := w, answer := some .done } :=
    busWrite_reg_of_idle (r := .cfgSize) hidle rfl
  have hk : busWrite s 0x014 .word w = { s with cfgK := w, answer := some .done } :=
    busWrite_reg_of_idle (r := .cfgK) hidle rfl
  have hseed : busWrite s 0x020 .word w = { s with seed := w, answer := some .done } :=
    busWrite_reg_of_idle (r := .seed) hidle rfl
  have hlen : busWrite s 0x024 .word w = { s with elemLen := w, answer := some .done } :=
    busWrite_reg_of_idle (r := .elemLen) hidle rfl
  refine ⟨hsize, hk, hseed, hlen, ?_⟩
  rintro a (rfl | rfl | rfl | rfl)
  · rw [hsize]; exact busRead_reg_answer _ .cfgSize
  · rw [hk]; exact busRead_reg_answer _ .cfgK
  · rw [hseed]; exact busRead_reg_answer _ .seed
  · rw [hlen]; exact busRead_reg_answer _ .elemLen

end Sys2Proof.Machine
end

section
/-! What an access does, by the target the decoder gives it (20_memory.md R84 to R89, R95, R96). -/

namespace Sys2Proof.Machine

variable {s : State} {addr : Word} {n : Width}

theorem busRead_of_reg {r : Reg} (hd : decodeAccess s.params addr n = .reg r) :
    busRead s addr n = s.answered (.data (s.readReg r)) := by
  simp only [busRead, hd]

theorem busRead_of_elem {i : Nat} (hd : decodeAccess s.params addr n = .elem i) :
    busRead s addr n = s.answered (.data (gather s.elemByte i n.bytes)) := by
  simp only [busRead, hd]

theorem busRead_of_bits_idle {j : Nat} (hd : decodeAccess s.params addr n = .bits j) (hidle : s.busy = false) :
    busRead s addr n = s.answered (.data (gather s.windowByte j n.bytes)) := by
  simp only [busRead, hd, hidle, Bool.false_eq_true, if_false]

theorem busRead_of_bits_busy {j : Nat} (hd : decodeAccess s.params addr n = .bits j) (hbusy : s.busy = true) :
    busRead s addr n = s.drew.answered (.data (gather (Config.busyByte s.draws) j n.bytes)) := by
  simp only [busRead, hd, hbusy, if_true]

theorem busRead_of_busError (hd : decodeAccess s.params addr n = .busError) :
    busRead s addr n = s.answered .error := by
  simp only [busRead, hd]

variable {v : Word}

theorem busWrite_of_reg {r : Reg} (hd : decodeAccess s.params addr n = .reg r) :
    busWrite s addr n v = (s.writeReg r v).answered .done := by
  simp only [busWrite, hd]

theorem busWrite_of_elem {i : Nat} (hd : decodeAccess s.params addr n = .elem i) :
    busWrite s addr n v = (s.unlessBusy { s with elem := writeElemBytes s.elem i v n.bytes }).answered .done := by
  simp only [busWrite, hd]

theorem busWrite_of_bits {j : Nat} (hd : decodeAccess s.params addr n = .bits j) :
    busWrite s addr n v =
      (s.unlessBusy { s with bits := writeBitsBytes s.inFilter s.bits j v n.bytes }).answered .done := by
  simp only [busWrite, hd]

theorem busWrite_of_busError (hd : decodeAccess s.params addr n = .busError) :
    busWrite s addr n v = s.answered .error := by
  simp only [busWrite, hd]

theorem busWrite_of_elem_idle {i : Nat} (hd : decodeAccess s.params addr n = .elem i) (hidle : s.busy = false) :
    busWrite s addr n v = { s with elem := writeElemBytes s.elem i v n.bytes }.answered .done := by
  rw [busWrite_of_elem hd, State.unlessBusy_of_idle _ hidle]

theorem busWrite_of_bits_idle {j : Nat} (hd : decodeAccess s.params addr n = .bits j) (hidle : s.busy = false) :
    busWrite s addr n v = { s with bits := writeBitsBytes s.inFilter s.bits j v n.bytes }.answered .done := by
  rw [busWrite_of_bits hd, State.unlessBusy_of_idle _ hidle]

end Sys2Proof.Machine
end

section
/-! Which accesses are bus errors (20_memory.md R89): the decoder refuses exactly those of the rule's list. -/

namespace Sys2Proof.Machine

open SpecForms

theorem Width.eq_word_of_bytes {n : Width} (h : n.bytes = 4) : n = .word := by
  cases n <;> simp [Width.bytes] at h ⊢

/-- Every aligned offset below 0x040 is a register's (10_state.md R32 to R47). -/
theorem Reg.exists_offset_eq {a : Nat} (ha : a < 0x40) (hal : a % 4 = 0) : ∃ r : Reg, a = r.offset := by
  have implemented : ∀ a < 0x40, a % 4 = 0 → (Reg.atOffset a).isSome := by decide
  obtain ⟨r, hr⟩ := Option.isSome_iff_exists.1 (implemented a ha hal)
  exact ⟨r, (Reg.offset_of_atOffset hr).symm⟩

theorem eq_regValue_of_toNat_eq {addr : Word} {r : Reg} (h : addr.toNat = r.offset) : addr = (Off.reg r).value := by
  rw [Off.value, ← h, BitVec.ofNat_toNat, BitVec.setWidth_eq]

/-- In the register window only the aligned word accesses below 0x040 are answered OK (20_memory.md R84, R85). -/
theorem isBusError_iff_of_regWindow {p : Params} {addr : Word} {n : Nat} (hwin : addr.toNat < 0x1000) :
    IsBusError p addr n ↔ ¬ (addr.toNat < 0x40 ∧ n = 4 ∧ addr.toNat % 4 = 0) := by
  have hend : windowEnd p addr.toNat = some 0x1000 := if_pos hwin
  simp only [IsBusError, hend, hwin, reduceCtorEq, false_or, true_and, and_true, Option.some.injEq, exists_eq_left']
  by_cases hn : n = 4
  · subst hn; omega
  · simp [hn]

/-- Past the register window an access is answered OK exactly when it is aligned and its window holds all its bytes
(20_memory.md R86, R87, R90). -/
theorem isBusError_iff_of_windowEnd {p : Params} {addr : Word} {n e : Nat} (hwin : ¬ addr.toNat < 0x1000)
    (hend : windowEnd p addr.toNat = some e) : IsBusError p addr n ↔ addr.toNat % n ≠ 0 ∨ e < addr.toNat + n := by
  simp [IsBusError, hend, hwin]

theorem windowEnd_of_elem {p : Params} {a : Nat} (h : 0x10000000 ≤ a ∧ a < 0x10000000 + p.maxElemBytes) :
    windowEnd p a = some (0x10000000 + p.maxElemBytes) := by
  rw [windowEnd, if_neg (by omega), if_pos h]

theorem windowEnd_of_bits {p : Params} {a : Nat} (hp : p.Legal)
    (h : 0x80000000 ≤ a ∧ a < 0x80000000 + p.maxBitsetBytes) :
    windowEnd p a = some (0x80000000 + p.maxBitsetBytes) := by
  obtain ⟨-, -, helem⟩ := hp
  rw [windowEnd, if_neg (by omega), if_neg (by omega), if_pos h]

/-- An access that the decoder lets through is none of the rule's list. -/
theorem not_isBusError_of_decodeAccess_ne {p : Params} (hp : p.Legal) {addr : Word} {n : Width}
    (h : decodeAccess p addr n ≠ .busError) : ¬ IsBusError p addr n.bytes := by
  have hpos := n.bytes_pos
  cases hd : decodeAccess p addr n with
  | reg r =>
    obtain ⟨rfl, haddr⟩ := decodeAccess_reg hd
    have hlt := r.offset_lt
    have hal : r.offset % 4 = 0 := by cases r <;> rfl
    rw [isBusError_iff_of_regWindow (by omega), haddr, not_not]
    exact ⟨hlt, rfl, hal⟩
  | elem i =>
    obtain ⟨haddr, hi, hal⟩ := decodeAccess_elem hd
    simp only [elemWindow] at haddr
    rw [isBusError_iff_of_windowEnd (by omega) (windowEnd_of_elem (by omega))]
    omega
  | bits j =>
    obtain ⟨haddr, hj, hal⟩ := decodeAccess_bits hd
    simp only [bitsWindow] at haddr
    rw [isBusError_iff_of_windowEnd (by omega) (windowEnd_of_bits hp (by omega))]
    omega
  | busError => exact absurd hd h

/-- An access that is none of the rule's list reaches a register, the element window or the bit-array window. -/
theorem decodeAccess_ne_busError {p : Params} {addr : Word} {n : Width} (h : ¬ IsBusError p addr n.bytes) :
    decodeAccess p addr n ≠ .busError := by
  by_cases hwin : addr.toNat < 0x1000
  · rw [isBusError_iff_of_regWindow hwin, not_not] at h
    obtain ⟨hlt, hn, hal⟩ := h
    obtain ⟨r, hr⟩ := Reg.exists_offset_eq hlt hal
    rw [Width.eq_word_of_bytes hn, eq_regValue_of_toNat_eq hr, decodeAccess_regOffset]
    simp
  · cases hend : windowEnd p addr.toNat with
    | none => exact absurd (.inl hend) h
    | some e =>
      rw [isBusError_iff_of_windowEnd hwin hend, not_or, not_not, not_lt] at h
      obtain ⟨hal, hfits⟩ := h
      rw [windowEnd, if_neg hwin] at hend
      have hpos := n.bytes_pos
      split_ifs at hend with helem hbits
      · have he := Option.some.inj hend
        rw [decodeAccess_of_elem hal hwin ⟨helem.1, by simp only [elemWindow]; omega⟩]
        simp
      · have he := Option.some.inj hend
        rw [decodeAccess_of_bits hal hwin (by simp only [elemWindow]; omega)
          ⟨hbits.1, by simp only [bitsWindow]; omega⟩]
        simp

/-- The bus errors of the rule's list are exactly the accesses that the decoder refuses (20_memory.md R89). -/
theorem isBusError_iff {p : Params} (hp : p.Legal) {addr : Word} {n : Width} :
    IsBusError p addr n.bytes ↔ decodeAccess p addr n = .busError :=
  ⟨not_imp_not.1 (not_isBusError_of_decodeAccess_ne hp), not_imp_not.1 decodeAccess_ne_busError⟩

/-- Settles O43: a bus error is answered without looking at the block, and everything else with data or `done`. -/
theorem busErrors : Obligations.BusErrors := by
  intro s addr n v hlegal
  rw [isBusError_iff hlegal]
  refine ⟨fun hd => ⟨busRead_of_busError hd, busWrite_of_busError hd, rfl⟩, fun hok => ?_⟩
  cases hd : decodeAccess s.params addr n with
  | reg r => exact ⟨⟨_, congrArg State.answer (busRead_of_reg hd)⟩, congrArg State.answer (busWrite_of_reg hd)⟩
  | elem i => exact ⟨⟨_, congrArg State.answer (busRead_of_elem hd)⟩, congrArg State.answer (busWrite_of_elem hd)⟩
  | bits j =>
    refine ⟨?_, congrArg State.answer (busWrite_of_bits hd)⟩
    cases hb : s.busy with
    | true => exact ⟨_, congrArg State.answer (busRead_of_bits_busy hd hb)⟩
    | false => exact ⟨_, congrArg State.answer (busRead_of_bits_idle hd hb)⟩
  | busError => exact absurd hd hok

end Sys2Proof.Machine
end

section
/-! Writes while the engine is busy (20_memory.md R94, R95): they reach no more than three flags. -/

namespace Sys2Proof.Machine

open SpecForms

/-- While a command is in flight a write moves at most IRQ_EN, DONE and OVR (20_memory.md R95). -/
theorem WriteEffect.flags_of_busy {s t : State} (h : WriteEffect s t) (hbusy : s.busy = true) :
    ∃ irqEn done ovr, t = { s with irqEn := irqEn, done := done, ovr := ovr } := by
  cases h with
  | nothing => exact ⟨_, _, _, rfl⟩
  | ctrl w => exact ⟨_, _, _, rfl⟩
  | status w => exact ⟨_, _, _, rfl⟩
  | dropped _ => exact ⟨_, _, _, rfl⟩
  | accepted hidle | cfgSize hidle | cfgK hidle | seed hidle | elemLen hidle | elem hidle | bits hidle =>
    simp [hidle] at hbusy

/-- Settles O26: a host step adds to its bus write only the answer, the draws and the script. -/
theorem hostCannotDisturbTheCommandInFlight : Obligations.HostCannotDisturbTheCommandInFlight := by
  intro s t op hbusy hmove hstep
  obtain ⟨u, script, a, draws, heffect, hhost⟩ := hostStep_cases s.advanceSchedule op
  obtain ⟨irqEn, done, ovr, rfl⟩ := heffect.flags_of_busy hbusy
  rw [step_of_nextMove hmove, perform, hhost] at hstep
  cases hstep
  exact ⟨rfl, rfl, rfl, rfl, rfl, rfl, rfl, rfl, rfl, rfl, rfl, rfl, rfl, rfl, rfl⟩

/-- An access below 0x1000 that is no bus error is a word access to a register (20_memory.md R84, R85). -/
theorem eq_word_of_not_isBusError {p : Params} {addr : Word} {n : Width} (h : ¬ IsBusError p addr n.bytes)
    (hwin : addr.toNat < 0x1000) : n = .word := by
  rw [isBusError_iff_of_regWindow hwin, not_not] at h
  obtain ⟨-, hn, -⟩ := h
  exact Width.eq_word_of_bytes hn

/-- A write while busy to anything but CTRL, STATUS and the read-only registers is dropped (20_memory.md R95). -/
theorem busWrite_dropped {s : State} {addr : Word} {n : Width} {v : Word} (hbusy : s.busy = true)
    (hok : ¬ IsBusError s.params addr n.bytes)
    (haddr : addr.toNat ∉ [0x004, 0x008, 0x000, 0x018, 0x01C, 0x028, 0x02C, 0x030, 0x034, 0x038, 0x03C]) :
    busWrite s addr n v = s.dropWrite.answered .done := by
  cases hd : decodeAccess s.params addr n with
  | reg r =>
    obtain ⟨-, hr⟩ := decodeAccess_reg hd
    rw [hr] at haddr
    have hreg : s.writeReg r v = s.dropWrite := by
      cases r with
      | cmd | cfgSize | cfgK | seed | elemLen => exact State.unlessBusy_of_busy _ hbusy
      | ctrl | status | id | size | k | hashOut | h1 | h2 | result | maxSize | maxElem =>
        exact absurd haddr (by decide)
    rw [busWrite_of_reg hd, hreg]
  | elem i => rw [busWrite_of_elem hd, State.unlessBusy_of_busy _ hbusy]
  | bits j => rw [busWrite_of_bits hd, State.unlessBusy_of_busy _ hbusy]
  | busError => exact absurd hd (decodeAccess_ne_busError hok)

/-- Settles O44: CTRL and STATUS by their own rules, read-only registers as in every phase (O40), the rest dropped. -/
theorem writesWhileBusy : Obligations.WritesWhileBusy := by
  intro s addr n v _ hbusy hok
  refine ⟨fun haddr => ?_, fun haddr => ?_, fun haddr => ?_, busWrite_dropped hbusy hok⟩
  · obtain rfl := eq_word_of_not_isBusError hok (by omega)
    rw [eq_regValue_of_toNat_eq (r := .ctrl) haddr]
    exact busWrite_reg s .ctrl v
  · obtain rfl := eq_word_of_not_isBusError hok (by omega)
    rw [eq_regValue_of_toNat_eq (r := .status) haddr]
    exact statusWriteOneToClear s v
  · have hmem : addr ∈ [(0x000 : Word), 0x018, 0x01C, 0x028, 0x02C, 0x030, 0x034, 0x038, 0x03C] := by
      simpa [← BitVec.toNat_inj] using haddr
    have hlow : addr.toNat < 0x1000 := by
      simp only [List.mem_cons, List.not_mem_nil, or_false] at haddr
      omega
    obtain rfl := eq_word_of_not_isBusError hok hlow
    exact readOnlyRegisters.1 s v addr hmem

end Sys2Proof.Machine
end

section
/-! The two RAM windows byte by byte (20_memory.md R81, R82, R86 to R88, R96). -/

namespace Sys2Proof.Machine

open SpecForms

/-- The value of an n-byte read fits in n bytes (20_memory.md R81). -/
theorem gather_toNat_lt (byte : Nat → Byte) (i n : Nat) : (gather byte i n).toNat < 2 ^ (8 * n) := by
  refine Nat.lt_pow_two_of_testBit _ fun q hq => ?_
  have hbeyond : ¬ q / 8 < n := by omega
  rw [BitVec.testBit_toNat, getLsbD_gather]
  simp [hbeyond]

/-- Four bytes that are those of a word make that word (20_memory.md R81). -/
theorem gather_eq_of_leByte {byte : Nat → Byte} {i : Nat} {w : Word} (h : ∀ b < 4, byte (i + b) = leByte w b) :
    gather byte i 4 = w := by
  apply BitVec.eq_of_getLsbD_eq
  intro q hq
  have hbyte : q / 8 < 4 := by omega
  have hbit : q % 8 < 8 := by omega
  rw [getLsbD_gather, h _ hbyte, getLsbD_leByte, Nat.div_add_mod]
  simp [hq, hbyte, hbit]

/-- The bytes of the element buffer after a write of n bytes (20_memory.md R86). -/
theorem elemByte_writeElemBytes (s : State) (i : Nat) (v : Word) (n j : Nat) :
    { s with elem := writeElemBytes s.elem i v n }.elemByte j =
      if i ≤ j ∧ j < i + n then leByte v (j - i) else s.elemByte j := by
  unfold State.elemByte
  rw [get?_writeElemBytes]
  split <;> rfl

/-- The bytes of the bit array after a write of n bytes: those outside the active filter stay (20_memory.md R87,
R88). -/
theorem bitsByte_writeBitsBytes (s : State) (i : Nat) (v : Word) (n j : Nat) :
    { s with bits := writeBitsBytes s.inFilter s.bits i v n }.bitsByte j =
      if (i ≤ j ∧ j < i + n) ∧ s.inFilter j = true then leByte v (j - i) else s.bitsByte j := by
  unfold State.bitsByte arrayByte
  rw [get?_writeBitsBytes]
  split <;> rfl

theorem State.inFilter_iff (s : State) (j : Nat) : s.inFilter j = true ↔ s.inited = true ∧ j < s.size.toNat := by
  simp [State.inFilter]

/-- Settles O46: byte b of the value lands at index i + b, and a read puts it back there. -/
theorem elementWindow : Obligations.ElementWindow := by
  intro s n i v hlegal hal hi
  have hd := decodeAccess_elemOffset hal hi hlegal
  refine ⟨fun hphase => ⟨_, busWrite_of_elem_idle hd ((State.not_busy_iff s).2 hphase), rfl, fun b hb => ?_,
      fun j hj => ?_⟩,
    _, busRead_of_elem hd, gather_toNat_lt _ _ _, fun b hb => leByte_gather _ _ n.bytes_le hb⟩
  · refine (elemByte_writeElemBytes s i v n.bytes (i + b)).trans ?_
    rw [if_pos (by omega), Nat.add_sub_cancel_left]
    rfl
  · exact (elemByte_writeElemBytes s i v n.bytes j).trans (if_neg (by omega))

/-- Byte j of the element is byte j of the buffer (10_state.md R50). -/
theorem byteAt_element {s : State} {j : Nat} (hj : j < s.elemLen.toNat) :
    byteAt s.element j = (s.elemByte j).zeroExtend 32 := by
  simp [byteAt, State.element, List.getD_eq_getElem?_getD, hj]

/-- Block b of the element is the word that a read of the element window gives at offset 4b (20_memory.md R82). -/
theorem blk_element {s : State} {b : Nat} (hb : 4 * b + 4 ≤ s.elemLen.toNat) :
    blk s.element b = gather s.elemByte (4 * b) 4 := by
  rw [blk, byteAt_element (by omega), byteAt_element (by omega), byteAt_element (by omega), byteAt_element (by omega)]
  simp [gather, leValue, List.range_succ, BitVec.shiftLeft_or_distrib, ← BitVec.shiftLeft_add, BitVec.or_assoc]

/-- Settles O47: block b is the word at offset 4b of the element window, and a write there sets its four bytes. -/
theorem wordWriteIsTheHashBlock : Obligations.WordWriteIsTheHashBlock := by
  intro s b hlegal hb
  refine ⟨?_, ?_, fun w hphase hmax => ?_⟩
  · rw [blk_element hb]
    exact leByte_gather s.elemByte (4 * b) (b := 0) (le_refl 4) (by decide)
  · rw [blk_element hb]
    exact leByte_gather s.elemByte (4 * b) (b := 3) (le_refl 4) (by decide)
  · have hal : 4 * b % Width.word.bytes = 0 := Nat.mul_mod_right 4 b
    have hwrite : busWrite s (BitVec.ofNat 32 (0x10000000 + 4 * b)) .word w =
        { s with elem := writeElemBytes s.elem (4 * b) w 4 }.answered .done :=
      busWrite_of_elem_idle (decodeAccess_elemOffset hal hmax hlegal) ((State.not_busy_iff s).2 hphase)
    rw [hwrite, blk_element (by simpa using hb)]
    refine gather_eq_of_leByte fun c hc => (elemByte_writeElemBytes s (4 * b) w 4 (4 * b + c)).trans ?_
    rw [if_pos (by omega), Nat.add_sub_cancel_left]

/-- Settles O48: each byte of the access is in the active filter or not, and reads and writes accordingly. -/
theorem bitArrayWindow : Obligations.BitArrayWindow := by
  intro s n i v hlegal hphase hal hi
  have hidle := (State.not_busy_iff s).2 hphase
  have hd := decodeAccess_bitsOffset hal hi hlegal
  have hread : ∀ b < n.bytes, leByte (gather s.windowByte i n.bytes) b = s.windowByte (i + b) :=
    fun b hb => leByte_gather _ _ n.bytes_le hb
  refine ⟨⟨_, busRead_of_bits_idle hd hidle, gather_toNat_lt _ _ _, fun b hb => ⟨fun hin => ?_, fun hout => ?_⟩⟩,
    ⟨_, busWrite_of_bits_idle hd hidle, rfl, fun b hb => ⟨fun hin => ?_, fun hout => ?_⟩, fun j hj => ?_⟩⟩
  · rw [← State.inFilter_iff] at hin
    exact (hread b hb).trans (if_pos hin)
  · rw [← State.inFilter_iff] at hout
    exact (hread b hb).trans (if_neg hout)
  · rw [← State.inFilter_iff] at hin
    refine (bitsByte_writeBitsBytes s i v n.bytes (i + b)).trans ?_
    rw [if_pos ⟨by omega, hin⟩, Nat.add_sub_cancel_left]
    rfl
  · rw [← State.inFilter_iff] at hout
    exact (bitsByte_writeBitsBytes s i v n.bytes (i + b)).trans (if_neg fun h => hout h.2)
  · exact (bitsByte_writeBitsBytes s i v n.bytes j).trans (if_neg (by omega))

/-- Settles O49: the busy read gathers the free bytes of its own draw and counts one draw more. -/
theorem busyBitArrayReadsAreFree : Obligations.BusyBitArrayReadsAreFree := by
  intro s n i hlegal hbusy hal hi
  have hd := decodeAccess_bitsOffset hal hi hlegal
  exact ⟨_, busRead_of_bits_busy hd hbusy, fun b hb => leByte_gather _ _ n.bytes_le hb⟩

end Sys2Proof.Machine
end

section
/-! Reads have no side effect, and equal reads and equal writes repeat (20_memory.md R93). -/

namespace Sys2Proof.Machine

/-- The block does not read its own last answer (log entry 4). -/
theorem readReg_answered (s : State) (a : Answer) (r : Reg) : (s.answered a).readReg r = s.readReg r := by
  cases r <;> rfl

theorem busRead_answered (s : State) (a : Answer) (addr : Word) (n : Width) :
    busRead (s.answered a) addr n = busRead s addr n := by
  unfold busRead
  rw [State.answered_params]
  cases decodeAccess s.params addr n with
  | reg r => simp only [readReg_answered]; rfl
  | elem i => rfl
  | bits j => rfl
  | busError => rfl

/-- Below the bit-array window, and anywhere while idle, a read draws no free byte (20_memory.md R93, R96). -/
theorem busRead_draws_nothing {s : State} {addr : Word} {n : Width}
    (h : s.busy = false ∨ addr.toNat < 0x80000000) : ∃ a, busRead s addr n = s.answered a := by
  cases hd : decodeAccess s.params addr n with
  | reg r => exact ⟨_, busRead_of_reg hd⟩
  | elem i => exact ⟨_, busRead_of_elem hd⟩
  | bits j =>
    obtain ⟨haddr, -, -⟩ := decodeAccess_bits hd
    have hidle : s.busy = false := h.resolve_right (by simp only [haddr, bitsWindow]; omega)
    exact ⟨_, busRead_of_bits_idle hd hidle⟩
  | busError => exact ⟨_, busRead_of_busError hd⟩

theorem writeElemBytes_idem {m : Memory} (hm : m.wf) (i : Nat) (v : Word) (n : Nat) :
    writeElemBytes (writeElemBytes m i v n) i v n = writeElemBytes m i v n := by
  have hwf := writeElemBytes_wf i v n hm
  refine Memory.ext_of_wf (writeElemBytes_wf i v n hwf) hwf (writeElemBytes_cleared _ _ _ _) fun j => ?_
  simp only [get?_writeElemBytes]
  split <;> rfl

theorem writeBitsBytes_idem (inFilter : Nat → Bool) {m : Memory} (hm : m.wf) (j : Nat) (v : Word) (n : Nat) :
    writeBitsBytes inFilter (writeBitsBytes inFilter m j v n) j v n = writeBitsBytes inFilter m j v n := by
  have hwf := writeBitsBytes_wf inFilter j v n hm
  refine Memory.ext_of_wf (writeBitsBytes_wf inFilter j v n hwf) hwf (writeBitsBytes_cleared _ _ _ _ _) fun a => ?_
  simp only [get?_writeBitsBytes]
  split <;> rfl

theorem WriteEffect.params {s t : State} (h : WriteEffect s t) : t.params = s.params := by
  cases h <;> rfl

theorem busWrite_params (s : State) (addr : Word) (n : Width) (v : Word) :
    (busWrite s addr n v).params = s.params := by
  obtain ⟨t, a, heffect, ht⟩ := busWrite_cases s addr n v
  rw [ht, State.answered_params, heffect.params]

/-- A write that is dropped while busy repeats when its idle effect does: dropping it twice drops it once. -/
theorem unlessBusy_repeats {s : State} {set : State → State} {a : Answer} (hphase : (set s).phase = s.phase)
    (hset : (set ((set s).answered a)).answered a = (set s).answered a) :
    (((s.unlessBusy (set s)).answered a).unlessBusy (set ((s.unlessBusy (set s)).answered a))).answered a =
      (s.unlessBusy (set s)).answered a := by
  cases hb : s.busy with
  | true =>
    have hdropped : (s.dropWrite.answered a).busy = true := hb
    rw [State.unlessBusy_of_busy _ hb, State.unlessBusy_of_busy _ hdropped]
    rfl
  | false =>
    have hidle : ((set s).answered a).busy = false := (congrArg Phase.isBusy hphase).trans hb
    rw [State.unlessBusy_of_idle _ hb, State.unlessBusy_of_idle _ hidle, hset]

/-- A write repeats at every register but STATUS, whose flags another event may set again, and CMD, which starts the
engine (20_memory.md R93). -/
theorem writeReg_repeats {s : State} {r : Reg} (v : Word) (hstatus : r ≠ .status) (hcmd : r ≠ .cmd) :
    (((s.writeReg r v).answered .done).writeReg r v).answered .done = (s.writeReg r v).answered .done := by
  cases r with
  | status => exact absurd rfl hstatus
  | cmd => exact absurd rfl hcmd
  | cfgSize => exact unlessBusy_repeats (set := fun t => { t with cfgSize := v }) rfl rfl
  | cfgK => exact unlessBusy_repeats (set := fun t => { t with cfgK := v }) rfl rfl
  | seed => exact unlessBusy_repeats (set := fun t => { t with seed := v }) rfl rfl
  | elemLen => exact unlessBusy_repeats (set := fun t => { t with elemLen := v }) rfl rfl
  | ctrl | id | size | k | hashOut | h1 | h2 | result | maxSize | maxElem => rfl

/-- A write repeats anywhere but at STATUS and CMD (20_memory.md R93). -/
theorem busWrite_repeats {s : State} (h : s.Inv) {addr : Word} (n : Width) (v : Word) (hstatus : addr.toNat ≠ 0x008)
    (hcmd : addr.toNat ≠ 0x00C) : busWrite (busWrite s addr n v) addr n v = busWrite s addr n v := by
  have hparams := busWrite_params s addr n v
  cases hd : decodeAccess s.params addr n with
  | reg r =>
    obtain ⟨-, hr⟩ := decodeAccess_reg hd
    rw [busWrite_of_reg (by rw [hparams, hd]), busWrite_of_reg hd]
    exact writeReg_repeats v (fun he => hstatus (hr.trans (congrArg Reg.offset he)))
      fun he => hcmd (hr.trans (congrArg Reg.offset he))
  | elem i =>
    rw [busWrite_of_elem (by rw [hparams, hd]), busWrite_of_elem hd]
    exact unlessBusy_repeats (set := fun t => { t with elem := writeElemBytes t.elem i v n.bytes }) rfl
      (congrArg (fun m => { s with elem := m, answer := some .done }) (writeElemBytes_idem h.elemWf i v n.bytes))
  | bits j =>
    rw [busWrite_of_bits (by rw [hparams, hd]), busWrite_of_bits hd]
    exact unlessBusy_repeats (set := fun t => { t with bits := writeBitsBytes t.inFilter t.bits j v n.bytes }) rfl
      (congrArg (fun m => { s with bits := m, answer := some .done })
        (writeBitsBytes_idem s.inFilter h.bitsWf j v n.bytes))
  | busError =>
    rw [busWrite_of_busError (by rw [hparams, hd]), busWrite_of_busError hd]
    rfl

/-- Settles O45: a read leaves the block but for its answer and its draw, so it repeats; a write by its target. -/
theorem readsHaveNoSideEffects : Obligations.ReadsHaveNoSideEffects := by
  refine ⟨fun s addr n => ?_, fun s addr n h => ?_,
    fun s addr n v h hstatus hcmd => busWrite_repeats h n v hstatus hcmd⟩
  · rcases busRead_cases s addr n with ⟨a, h⟩ | ⟨-, a, h⟩
    · exact ⟨a, s.draws, h⟩
    · exact ⟨a, s.draws + 1, h⟩
  · obtain ⟨a, ha⟩ := busRead_draws_nothing (n := n) h
    calc busRead (busRead s addr n) addr n = busRead (s.answered a) addr n := by rw [ha]
      _ = busRead s addr n := busRead_answered s a addr n

end Sys2Proof.Machine
end

section
/-! The decoder and the encoder agree, on words, on bytes and on the table's numbers (30_encoding.md R122 to R125). -/

namespace Sys2Proof

/-- Settles O1: each word is below 256 with a command's OPC, has a reserved OPC, or has a reserved bit set. -/
theorem commandWordsDecode : Obligations.CommandWordsDecode := by
  unfold Obligations.CommandWordsDecode
  decide

theorem decode_eq_ok_iff_eq_encode (w : Word) (i : Instr) : decode w = .ok i ↔ w = encode i := by
  rw [decode_eq_ok_iff, ← encode_toNat, BitVec.toNat_inj]

/-- The bytes of a word, lowest address first (20_memory.md R81). -/
def bytesOfWord (w : Word) : List Byte :=
  [w.extractLsb' 0 8, w.extractLsb' 8 8, w.extractLsb' 16 8, w.extractLsb' 24 8]

theorem bytesOfWord_encode (i : Instr) : bytesOfWord (encode i) = encodeBytes i := rfl

theorem bytesOfWord_wordOfBytes (b0 b1 b2 b3 : Byte) : bytesOfWord (wordOfBytes b0 b1 b2 b3) = [b0, b1, b2, b3] := by
  have above : ∀ {start v : Nat} {hi : BitVec v} {lo : Byte}, 8 ≤ start →
      (hi ++ lo).extractLsb' start 8 = hi.extractLsb' (start - 8) 8 := BitVec.extractLsb'_append_eq_of_le
  have byte0 : (wordOfBytes b0 b1 b2 b3).extractLsb' 0 8 = b0 := BitVec.extractLsb'_append_eq_right
  have byte1 : (wordOfBytes b0 b1 b2 b3).extractLsb' 8 8 = b1 :=
    (above (by decide)).trans BitVec.extractLsb'_append_eq_right
  have byte2 : (wordOfBytes b0 b1 b2 b3).extractLsb' 16 8 = b2 :=
    (above (by decide)).trans ((above (by decide)).trans BitVec.extractLsb'_append_eq_right)
  have byte3 : (wordOfBytes b0 b1 b2 b3).extractLsb' 24 8 = b3 :=
    (above (by decide)).trans ((above (by decide)).trans BitVec.extractLsb'_append_eq_left)
  rw [bytesOfWord, byte0, byte1, byte2, byte3]

theorem decodeBytes_bytesOfWord (w : Word) : decodeBytes (bytesOfWord w) = decode w :=
  congrArg decode (wordOfBytes_extract w)

/-- The bytes that decode are those of one word (R125). -/
theorem exists_word_of_decodeBytes_eq_ok {bytes : List Byte} {i : Instr} (h : decodeBytes bytes = .ok i) :
    ∃ w, bytes = bytesOfWord w := by
  unfold decodeBytes at h
  split at h
  · exact ⟨_, (bytesOfWord_wordOfBytes _ _ _ _).symm⟩
  · cases h

theorem decodeBytes_eq_ok_iff (bytes : List Byte) (i : Instr) : decodeBytes bytes = .ok i ↔ bytes = encodeBytes i := by
  constructor
  · intro h
    obtain ⟨w, rfl⟩ := exists_word_of_decodeBytes_eq_ok h
    rw [decodeBytes_bytesOfWord, decode_eq_ok_iff_eq_encode] at h
    rw [h, bytesOfWord_encode]
  · rintro rfl
    rw [← bytesOfWord_encode, decodeBytes_bytesOfWord, decode_eq_ok_iff_eq_encode]

theorem decodeTableWord_eq_some_iff {n w : Nat} (hn : n ≤ 32) (i : Instr) :
    decodeTableWord n w = some i ↔ decode (tableWord n w) = .ok i := by
  have hbytes := decodeBytes_bytesOfWord (tableWord n w)
  rw [bytesOfWord] at hbytes
  simp only [decodeTableWord, Nat.not_lt.2 hn, if_false, hbytes]
  cases decode (tableWord n w) <;> simp

/-- Settles O2: a word decodes to a command exactly if it is the command's word; bytes and table numbers are read as
words. -/
theorem decodeAndEncodeAgree : Obligations.DecodeAndEncodeAgree := by
  refine ⟨fun i _ => (decode_eq_ok_iff_eq_encode _ i).2 rfl, fun w i => (decode_eq_ok_iff_eq_encode w i).1,
    decodeBytes_eq_ok_iff, fun n i hn => ?_⟩
  rw [decodeTableWord_eq_some_iff (le_refl 32), decode_eq_ok_iff_eq_encode, ← BitVec.toNat_inj,
    tableWord, BitVec.toNat_ofNat, Nat.mod_mod, Nat.mod_eq_of_lt hn]

/-- The words of the six commands are the numbers 1 to 6 (R122). -/
theorem exists_decode_eq_ok_iff (w : Word) : (∃ i, decode w = .ok i) ↔ 1 ≤ w.toNat ∧ w.toNat ≤ 6 := by
  simp only [decode_eq_ok_iff]
  constructor
  · rintro ⟨i, h⟩
    rw [h]
    cases i <;> decide
  · rintro ⟨hlow, hhigh⟩
    have hword : w.toNat = 1 ∨ w.toNat = 2 ∨ w.toNat = 3 ∨ w.toNat = 4 ∨ w.toNat = 5 ∨ w.toNat = 6 := by omega
    rcases hword with h | h | h | h | h | h
    exacts [⟨.init, h⟩, ⟨.deinit, h⟩, ⟨.hash, h⟩, ⟨.derive, h⟩, ⟨.insert, h⟩, ⟨.contains, h⟩]

theorem exists_decode_eq_error_iff (w : Word) : (∃ e, decode w = .error e) ↔ ¬ (1 ≤ w.toNat ∧ w.toNat ≤ 6) := by
  rw [← exists_decode_eq_ok_iff]
  cases decode w <;> simp

end Sys2Proof
end

section
/-! Who moves next, what a completion leaves, and the completion of an illegal word (60_exceptions.md R223, R232,
R247). -/

namespace Sys2Proof.Machine

theorem nextMove_of_scheduled_host {s : State} {op : HostOp} {script : List HostOp} {rest : List Mover}
    (hscript : s.script = op :: script) (hschedule : s.schedule = .host :: rest) : s.nextMove = .host op := by
  simp [State.nextMove, State.hostMove, hschedule, hscript]

/-- With an empty schedule the host moves while the engine is idle (log entry 2). -/
theorem nextMove_of_idle {s : State} {op : HostOp} {script : List HostOp} (hidle : s.busy = false)
    (hscript : s.script = op :: script) (hschedule : s.schedule = []) : s.nextMove = .host op := by
  simp [State.nextMove, State.hostMove, hschedule, hidle, hscript]

/-- With an empty schedule a busy engine moves (log entry 2). -/
theorem nextMove_of_busy {s : State} {w : Word} (hphase : s.phase = .busy w) (hschedule : s.schedule = []) :
    s.nextMove = .engine w := by
  have hbusy : s.busy = true := (State.busy_iff s).2 ⟨w, hphase⟩
  simp [State.nextMove, State.engineMove, hschedule, hbusy, hphase]

/-- No command writes the host's script or the schedule (log entry 1). -/
theorem Succeeds.inputs {i : Instr} {s t : State} (h : Succeeds i s t) :
    t.script = s.script ∧ t.schedule = s.schedule := by
  cases h <;> exact ⟨rfl, rfl⟩

/-- Every command word completes, and its completion leaves the inputs (60_exceptions.md R232). -/
theorem engineStep_completes (w : Word) (s : State) :
    ∃ t, engineStep w s = .next t ∧ t.phase = .idle ∧ t.done = true ∧ t.script = s.script ∧
      t.schedule = s.schedule := by
  rcases engineStep_cases w s with ⟨e, -, h⟩ | ⟨i, t, -, hwrites, h⟩
  · exact ⟨_, h, rfl, rfl, rfl, rfl⟩
  · obtain ⟨hscript, hschedule⟩ := hwrites.inputs
    exact ⟨_, h, rfl, rfl, hscript, hschedule⟩

/-- Settles O3: the illegal words are all but 1 to 6; acceptance does not decode the word, and where it decodes to no
command its completion is `complete(ILLEGAL_CMD)`. -/
theorem illegalWordsCompleteWithIllegalCmd : Obligations.IllegalWordsCompleteWithIllegalCmd := by
  refine ⟨fun w => ?_, fun s w e hdecode => ⟨fun hphase => ?_, fun hmove => ?_⟩⟩
  · rw [exists_decode_eq_error_iff]
    omega
  · exact busWrite_reg_of_idle (r := .cmd) ((State.not_busy_iff s).2 hphase) rfl
  · rw [step_of_nextMove hmove, perform, engineStep, hdecode]
    rfl

end Sys2Proof.Machine
end

section
/-! `wait` ends: any number of host turns leaves it waiting, then the engine completes and its next read ends it
(30_encoding.md R131). -/

namespace Sys2Proof.Machine

theorem step_wait_of_idle {s : State} {rest : List HostOp} (hidle : s.busy = false) (hscript : s.script = .wait :: rest)
    (hschedule : s.schedule = []) :
    step s = .next (s.advanceSchedule.answered (.data s.statusWord)).advanceScript :=
  (step_of_nextMove (nextMove_of_idle hidle hscript hschedule)).trans
    (congrArg Host.Outcome.next (hostStep_wait_of_idle hidle))

theorem step_wait_of_busy {s : State} {rest : List HostOp} {turns : List Mover} (hbusy : s.busy = true)
    (hscript : s.script = .wait :: rest) (hschedule : s.schedule = .host :: turns) :
    step s = .next (s.advanceSchedule.answered (.data s.statusWord)) :=
  (step_of_nextMove (nextMove_of_scheduled_host hscript hschedule)).trans
    (congrArg Host.Outcome.next (hostStep_wait_of_busy hbusy))

/-- With no host turn left, the engine completes and the next read ends `wait`. -/
theorem wait_ends_after_completion {s : State} {w : Word} {rest : List HostOp} (hphase : s.phase = .busy w)
    (hscript : s.script = .wait :: rest) (hschedule : s.schedule = []) :
    ∃ t, Host.Core.run Sys2Proof.core 2 s = .next t ∧ t.script = rest ∧ t.phase = .idle ∧ t.done = true := by
  obtain ⟨u, hu, huphase, hudone, huscript, huschedule⟩ := engineStep_completes w s.advanceSchedule
  have hstep : step s = .next u := (step_of_nextMove (nextMove_of_busy hphase hschedule)).trans hu
  have hscript' : u.script = .wait :: rest := huscript.trans hscript
  have hschedule' : u.schedule = [] := huschedule.trans (congrArg List.tail hschedule)
  have hlast := step_wait_of_idle ((State.not_busy_iff u).2 huphase) hscript' hschedule'
  exact ⟨_, (run_succ_of_step hstep 1).trans (run_succ_of_step hlast 0), congrArg List.tail hscript', huphase, hudone⟩

/-- Settles O56, by induction on the number of host turns: each reads BUSY = 1, so `wait` stays the next operation. -/
theorem waitEnds : Obligations.WaitEnds := by
  intro s w n rest hphase hscript hschedule
  induction n generalizing s with
  | zero => exact wait_ends_after_completion hphase hscript hschedule
  | succ n ih =>
    rw [run_succ_of_step (step_wait_of_busy ((State.busy_iff s).2 ⟨w, hphase⟩) hscript hschedule)]
    exact ih _ hphase hscript (congrArg List.tail hschedule)

end Sys2Proof.Machine
end

section
/-! The pseudo-instruction `elem`: its byte writes store the bytes one after the other, its last write sets ELEM_LEN
(30_encoding.md R131). -/

namespace Sys2Proof.Machine

/-- The element buffer after the byte writes of `elem` from index `i` on (`elemWrites`, R131). -/
def storeBytes : Memory → Nat → List Byte → Memory
  | m, _, [] => m
  | m, i, b :: rest => storeBytes (m.write i b) (i + 1) rest

theorem get?_storeBytes (m : Memory) (i : Nat) (bytes : List Byte) (j : Nat) :
    (storeBytes m i bytes).get? j = if i ≤ j ∧ j < i + bytes.length then bytes[j - i]? else m.get? j := by
  induction bytes generalizing m i with
  | nil => simp [storeBytes]
  | cons b rest ih =>
    rw [storeBytes, ih, Memory.get?_write, List.length_cons]
    by_cases hj : i = j
    · subst hj
      simp
    · by_cases hin : i ≤ j ∧ j < i + (rest.length + 1)
      · have hidx : j - i = j - (i + 1) + 1 := by omega
        rw [if_pos hin, if_pos (by omega), hidx, List.getElem?_cons_succ]
      · rw [if_neg hin, if_neg (by omega), if_neg hj]

/-- While the engine is idle and nothing is scheduled, a step is the host's next write (log entries 1, 2). -/
theorem step_write_of_idle {s t : State} {addr : Word} {n : Width} {v : Word} {script : List HostOp}
    (hphase : s.phase = .idle) (hschedule : s.schedule = []) (hscript : s.script = .access (.write addr n v) :: script)
    (hwrite : busWrite { s with script := script } addr n v = t) : step s = .next t := by
  have hmoved : s.advanceSchedule.advanceScript = { s with script := script } := by
    simp [State.advanceSchedule, State.advanceScript, hschedule, hscript]
  rw [step_of_nextMove (nextMove_of_idle ((State.not_busy_iff s).2 hphase) hscript hschedule), perform, hostStep,
    busAccess, hmoved, hwrite]

/-- One byte write of `elem` stores its byte and nothing else (20_memory.md R86). -/
theorem busWrite_elem_byte {s : State} {i : Nat} (hlegal : s.params.Legal) (hi : i < s.params.maxElemBytes)
    (hphase : s.phase = .idle) (b : Byte) :
    busWrite s (Off.elem i).value .byte (b.zeroExtend 32) =
      { s with elem := s.elem.write i b, answer := some .done } := by
  have hd : decodeAccess s.params (Off.elem i).value .byte = .elem i :=
    decodeAccess_elemOffset (Nat.mod_one i) hi hlegal
  have hbyte : leByte (b.zeroExtend 32) 0 = b := by
    simp [leByte, BitVec.extractLsb'_setWidth_of_le]
  rw [busWrite_of_elem_idle hd ((State.not_busy_iff s).2 hphase)]
  simp only [Width.bytes, writeElemBytes, hbyte]
  rfl

/-- The byte writes of `elem` run one step each; they leave the stored bytes and, where there are any, an answer. -/
theorem run_elemWrites (bytes : List Byte) (i k : Nat) (rest : List HostOp) {s : State} (hlegal : s.params.Legal)
    (hfits : i + bytes.length ≤ s.params.maxElemBytes) (hphase : s.phase = .idle) (hschedule : s.schedule = [])
    (hscript : s.script = elemWrites i bytes ++ rest) :
    ∃ a, Host.Core.run Sys2Proof.core (bytes.length + k) s =
      Host.Core.run Sys2Proof.core k
        { s with elem := storeBytes s.elem i bytes, script := rest, answer := a } := by
  induction bytes generalizing s i with
  | nil =>
    have hrest : s.script = rest := hscript
    refine ⟨s.answer, ?_⟩
    rw [List.length_nil, Nat.zero_add, ← hrest]
    rfl
  | cons b bytes ih =>
    rw [List.length_cons] at hfits
    have hstep : step s = .next { s with
        elem := s.elem.write i b, script := elemWrites (i + 1) bytes ++ rest, answer := some .done } :=
      step_write_of_idle hphase hschedule hscript
        (busWrite_elem_byte (s := { s with script := elemWrites (i + 1) bytes ++ rest }) hlegal
          (Nat.lt_of_lt_of_le (by omega) hfits) hphase b)
    rw [List.length_cons, Nat.add_right_comm, run_succ_of_step hstep]
    exact ih (i + 1) hlegal (Nat.le_trans (by omega) hfits) hphase hschedule rfl

/-- The element is the bytes stored from index 0 on, when ELEM_LEN is their number (10_state.md R50). -/
theorem element_of_storeBytes {s : State} {m : Memory} {bytes : List Byte} (helem : s.elem = storeBytes m 0 bytes)
    (hlen : s.elemLen.toNat = bytes.length) : s.element = bytes := by
  refine List.ext_getElem (by simp [State.element, hlen]) fun j _ hj => ?_
  have hget : s.elem.get? j = some bytes[j] := by
    rw [helem, get?_storeBytes, if_pos (by omega), Nat.sub_zero, List.getElem?_eq_getElem hj]
  simp [State.element, State.elemByte, hget]

/-- The last write of `elem` sets ELEM_LEN and nothing else (10_state.md R41). -/
theorem step_write_elemLen {s : State} {w : Word} {rest : List HostOp} (hphase : s.phase = .idle)
    (hschedule : s.schedule = []) (hscript : s.script = writeReg32 .elemLen w :: rest) :
    step s = .next { s with elemLen := w, script := rest, answer := some .done } :=
  step_write_of_idle hphase hschedule hscript
    (busWrite_reg_of_idle (s := { s with script := rest }) (r := .elemLen) ((State.not_busy_iff s).2 hphase) rfl)

/-- Settles O57: the byte writes store the bytes from index 0 on, and the write of ELEM_LEN makes them the element. -/
theorem elemPseudoInstruction : Obligations.ElemPseudoInstruction := by
  intro s bytes rest hlegal hfits hphase hschedule hscript
  rw [Line.expand, expandElem, List.append_assoc] at hscript
  obtain ⟨a, hrun⟩ := run_elemWrites bytes 0 1 _ hlegal (by omega) hphase hschedule hscript
  have hlast := step_write_elemLen (s := { s with
    elem := storeBytes s.elem 0 bytes
    script := writeReg32 .elemLen (BitVec.ofNat 32 bytes.length) :: rest
    answer := a }) hphase hschedule rfl
  refine ⟨_, hrun.trans (run_succ_of_step hlast 0), element_of_storeBytes rfl ?_, rfl, rfl⟩
  obtain ⟨-, -, hmax⟩ := hlegal
  exact (BitVec.toNat_ofNat ..).trans (Nat.mod_eq_of_lt (by omega))

end Sys2Proof.Machine
end

section
/-! HASH, and `hash32` by index: the recursion on the list of bytes is the spec's loop over block and tail indexes
(40_hash_engine.md R142 to R151). -/

namespace Sys2Proof.Machine

open Sys2Proof.SpecForms

/-! ### The constants on the spec's side of their products and sums (R143, R145) -/

theorem mixK_eq (k : Word) : mixK k = rotl32 (k * 0xcc9e2d51#32) 15 * 0x1b873593#32 := by
  rw [mixK, BitVec.mul_comm, BitVec.mul_comm _ k]

theorem mixBlock_eq (h k : Word) : mixBlock h k = rotl32 (h ^^^ mixK k) 13 * 5#32 + 0xe6546b64#32 := by
  rw [mixBlock, BitVec.add_comm, BitVec.mul_comm]

theorem fmix_eq (h : Word) :
    fmix h =
      let a := (h ^^^ h >>> 16) * 0x85ebca6b#32
      let b := (a ^^^ a >>> 13) * 0xc2b2ae35#32
      b ^^^ b >>> 16 := by
  simp only [fmix, BitVec.mul_comm 0x85ebca6b#32, BitVec.mul_comm 0xc2b2ae35#32]

theorem fmix_zero : fmix 0 = 0 := by decide

/-! ### Dropping the first block moves every index by one block (R142) -/

theorem byteAt_cons_succ (b : Byte) (data : List Byte) (i : Nat) : byteAt (b :: data) (i + 1) = byteAt data i := rfl

theorem byteAt_dropBlock (b0 b1 b2 b3 : Byte) (rest : List Byte) (b i : Nat) :
    byteAt (b0 :: b1 :: b2 :: b3 :: rest) (4 * (b + 1) + i) = byteAt rest (4 * b + i) := by
  rw [show 4 * (b + 1) + i = 4 * b + i + 1 + 1 + 1 + 1 by omega]
  rfl

theorem blk_zero (b0 b1 b2 b3 : Byte) (rest : List Byte) :
    blk (b0 :: b1 :: b2 :: b3 :: rest) 0 = blockWord b0 b1 b2 b3 := rfl

theorem blk_dropBlock (b0 b1 b2 b3 : Byte) (rest : List Byte) (b : Nat) :
    blk (b0 :: b1 :: b2 :: b3 :: rest) (b + 1) = blk rest b := by
  have hfirst := byteAt_dropBlock b0 b1 b2 b3 rest b 0
  simp only [Nat.add_zero] at hfirst
  simp only [blk, byteAt_dropBlock, hfirst]

theorem afterBlocks_succ (data : List Byte) (seed : Word) (b : Nat) :
    afterBlocks data seed (b + 1) = mixBlock (afterBlocks data seed b) (blk data b) := by
  rw [mixBlock_eq, mixK_eq]
  rfl

theorem afterBlocks_dropBlock (b0 b1 b2 b3 : Byte) (rest : List Byte) (seed : Word) (b : Nat) :
    afterBlocks (b0 :: b1 :: b2 :: b3 :: rest) seed (b + 1) =
      afterBlocks rest (mixBlock seed (blockWord b0 b1 b2 b3)) b := by
  induction b with
  | zero => rw [afterBlocks_succ, blk_zero]; rfl
  | succ b ih => rw [afterBlocks_succ, ih, blk_dropBlock, ← afterBlocks_succ]

theorem tailAcc_dropBlock (acc : Word → Word → Word) (b0 b1 b2 b3 : Byte) (rest : List Byte) (nb t : Nat) :
    tailAcc acc (b0 :: b1 :: b2 :: b3 :: rest) (nb + 1) t = tailAcc acc rest nb t := by
  induction t with
  | zero => rfl
  | succ t ih => rw [tailAcc, tailAcc, ih, byteAt_dropBlock]

/-! ### The tail (R144) -/

/-- The first byte of a tail is the lowest; the others move up by eight bits. -/
theorem tailAcc_or_cons (b : Byte) (rest : List Byte) (t : Nat) :
    tailAcc (· ||| ·) (b :: rest) 0 (t + 1) = b.zeroExtend 32 ||| tailAcc (· ||| ·) rest 0 t <<< 8 := by
  induction t with
  | zero => simp [tailAcc, byteAt]
  | succ t ih =>
    rw [tailAcc, ih, tailAcc, BitVec.shiftLeft_or_distrib, BitVec.or_assoc, ← BitVec.shiftLeft_add,
      Nat.mul_zero, Nat.zero_add, Nat.zero_add, byteAt_cons_succ]
    rfl

theorem tailWord_eq_tailAcc (tail : List Byte) : tailWord tail = tailAcc (· ||| ·) tail 0 tail.length := by
  induction tail with
  | nil => rfl
  | cons b rest ih => rw [tailWord, ih, List.length_cons, tailAcc_or_cons]

/-- After t bytes only the low 8t bits of the partial block can be set. -/
theorem getLsbD_tailAcc_or (data : List Byte) (nb t : Nat) {i : Nat} (hi : 8 * t ≤ i) :
    (tailAcc (· ||| ·) data nb t).getLsbD i = false := by
  induction t with
  | zero => simp [tailAcc]
  | succ t ih =>
    have hhigh (byte : Byte) : byte.getLsbD (i - 8 * t) = false := BitVec.getLsbD_of_ge _ _ (by omega)
    simp [tailAcc, ih (by omega), byteAt, hhigh]

/-- The next byte of the tail shares no bit with those before it. -/
theorem tailAcc_or_and_next (data : List Byte) (nb t : Nat) :
    tailAcc (· ||| ·) data nb t &&& byteAt data (4 * nb + t) <<< (8 * t) = 0#32 := by
  apply BitVec.eq_of_getLsbD_eq
  intro i hi
  by_cases hlow : i < 8 * t
  · simp [hlow]
  · simp [getLsbD_tailAcc_or data nb t (Nat.le_of_not_lt hlow)]

theorem tailAcc_or_eq_add (data : List Byte) (nb t : Nat) :
    tailAcc (· ||| ·) data nb t = tailAcc (· + ·) data nb t := by
  induction t with
  | zero => rfl
  | succ t ih => rw [tailAcc, tailAcc, ← ih, BitVec.add_eq_or_of_and_eq_zero _ _ (tailAcc_or_and_next data nb t)]

/-- OR and XOR differ only in bits that both words set. -/
theorem or_eq_xor_of_and_eq_zero {x y : Word} (h : x &&& y = 0#32) : x ||| y = x ^^^ y := by
  ext i hi
  have hbit : (x[i] && y[i]) = false := by rw [← BitVec.getElem_and, h, BitVec.getElem_zero]
  rw [BitVec.getElem_or, BitVec.getElem_xor]
  revert hbit
  cases x[i] <;> cases y[i] <;> decide

theorem tailAcc_or_eq_xor (data : List Byte) (nb t : Nat) :
    tailAcc (· ||| ·) data nb t = tailAcc (· ^^^ ·) data nb t := by
  induction t with
  | zero => rfl
  | succ t ih =>
    rw [tailAcc, tailAcc, ← ih, or_eq_xor_of_and_eq_zero (tailAcc_or_and_next data nb t)]

/-! ### The whole hash (R146) -/

/-- The running state of the pseudocode after its blocks and its tail, which is skipped when there is none
(R143, R144). -/
def bodyByIndex (data : List Byte) (seed : Word) : Word :=
  let h := afterBlocks data seed (data.length / 4)
  if data.length % 4 = 0 then h
  else h ^^^ mixK (tailAcc (· ||| ·) data (data.length / 4) (data.length % 4))

theorem hash32ByIndex_eq (data : List Byte) (seed : Word) :
    hash32ByIndex data seed = fmix (bodyByIndex data seed ^^^ BitVec.ofNat 32 data.length) := by
  rw [fmix_eq, bodyByIndex, mixK_eq]
  rfl

theorem bodyByIndex_dropBlock (b0 b1 b2 b3 : Byte) (rest : List Byte) (seed : Word) :
    bodyByIndex (b0 :: b1 :: b2 :: b3 :: rest) seed = bodyByIndex rest (mixBlock seed (blockWord b0 b1 b2 b3)) := by
  have hblocks : (b0 :: b1 :: b2 :: b3 :: rest).length / 4 = rest.length / 4 + 1 := by
    simp only [List.length_cons]
    omega
  have htail : (b0 :: b1 :: b2 :: b3 :: rest).length % 4 = rest.length % 4 := by
    simp only [List.length_cons]
    omega
  rw [bodyByIndex, hblocks, htail, afterBlocks_dropBlock, tailAcc_dropBlock]
  rfl

/-- Fewer than four bytes are all tail (R144). -/
theorem hashBody_of_short {tail : List Byte} (seed : Word) (hne : tail ≠ []) (hlt : tail.length < 4) :
    hashBody tail seed = seed ^^^ mixK (tailWord tail) := by
  match tail with
  | [] => exact absurd rfl hne
  | [_] | [_, _] | [_, _, _] => rfl
  | _ :: _ :: _ :: _ :: rest =>
    simp only [List.length_cons] at hlt
    omega

theorem bodyByIndex_of_short {tail : List Byte} (seed : Word) (hne : tail ≠ []) (hlt : tail.length < 4) :
    bodyByIndex tail seed = seed ^^^ mixK (tailWord tail) := by
  have hpos : tail.length ≠ 0 := mt List.eq_nil_of_length_eq_zero hne
  simp [bodyByIndex, Nat.div_eq_of_lt hlt, Nat.mod_eq_of_lt hlt, hpos, tailWord_eq_tailAcc, afterBlocks]

/-- The recursion over the bytes and the loop over the block indexes leave the same state: each full block is block 0 of
the bytes that begin with it. -/
theorem hashBody_eq_bodyByIndex (data : List Byte) (seed : Word) : hashBody data seed = bodyByIndex data seed := by
  induction data, seed using hashBody.induct with
  | case1 b0 b1 b2 b3 rest seed ih => rw [hashBody, ih, bodyByIndex_dropBlock]
  | case2 seed => rfl
  | case3 tail seed hshort hne =>
    have hlt : tail.length < 4 := by
      match tail, hshort with
      | [], _ | [_], _ | [_, _], _ | [_, _, _], _ => simp
      | b0 :: b1 :: b2 :: b3 :: rest, hshort => exact (hshort b0 b1 b2 b3 rest rfl).elim
    rw [hashBody_of_short seed hne hlt, bodyByIndex_of_short seed hne hlt]

/-- Settles O9: the running state is the same by induction over the blocks; the bytes of a tail share no bit, so OR,
addition and XOR agree on them. -/
theorem hashIsTheSpecsPseudocode : Obligations.HashIsTheSpecsPseudocode :=
  ⟨fun data seed => by rw [hash32ByIndex_eq, ← hashBody_eq_bodyByIndex, hash32],
    fun data nb t _ => ⟨tailAcc_or_eq_add data nb t, tailAcc_or_eq_xor data nb t⟩⟩

/-! ### The HASH command (R150, R151) -/

/-- Settles O8, by whether the element is too long. -/
theorem hashCommand : Obligations.HashCommand := by
  refine ⟨by decide, fun s => ⟨fun hfits => ?_, fun hlong => ?_⟩⟩
  · exact execHash_of_fits ((State.elemTooLong_false_iff s).2 hfits)
  · exact execHash_of_long ((State.elemTooLong_iff s).2 hlong)

theorem State.element_of_elemLen_zero {s : State} (h : s.elemLen = 0) : s.element = [] := by
  simp [State.element, h]

/-- With no block and no tail, the avalanche mix meets the seed itself. -/
theorem hash32_nil (seed : Word) : hash32 [] seed = fmix seed := by
  simp [hash32, hashBody]

/-- Settles O10: a length of 0 is never too long, so HASH completes with the hash of no bytes. -/
theorem hashOfEmptyElement : Obligations.HashOfEmptyElement := by
  intro s hlen
  have hfits : s.elemTooLong = false := (State.elemTooLong_false_iff s).2 (by simp [hlen])
  have hout : hash32 s.element s.seed = fmix s.seed := by rw [State.element_of_elemLen_zero hlen, hash32_nil]
  refine ⟨_, execHash_of_fits hfits, hout, fun hseed => hout.trans ?_⟩
  rw [hseed, fmix_zero]

end Sys2Proof.Machine
end

section
/-! What the filter commands do, through the k positions of the element (41_filter.md R170 to R172, R195 to R201). -/

namespace Sys2Proof.Machine

/-- The position that the i-th derived hash of an element addresses in a filter of `size` bytes (41_filter.md R170 to
R172). -/
def elementPosition (e : List Byte) (size i : Nat) : Nat := bitPosition (derivedHash (digest1 e) (digest2 e) i) size

/-- The filter holds all k bits of an element (41_filter.md R201). -/
def State.HoldsElement (s : State) (e : List Byte) : Prop :=
  ∀ i, i < s.k.toNat → s.bitAt (elementPosition e s.size.toNat i) = true

/-- Every position is below S (41_filter.md R174). -/
theorem bitPosition_lt (v : Word) {size : Nat} (h : 1 ≤ size) : bitPosition v size < size := Nat.mod_lt _ h

theorem elementPosition_lt (e : List Byte) {size : Nat} (h : 1 ≤ size) (i : Nat) : elementPosition e size i < size :=
  bitPosition_lt _ h

/-- Filter bit p is bit p mod 8 of byte p div 8 (41_filter.md R172). -/
theorem State.bitAt_eq_getLsbD (s : State) (p : Nat) : s.bitAt p = (s.bitsByte (p / 8)).getLsbD (p % 8) :=
  testByte_eq_getLsbD _ _

/-- A command that completes with OK has made its own writes (60_exceptions.md R232). -/
theorem succeeds_of_exec_ok {i : Instr} {s t : State} (h : exec i s = .next t) (hok : t.err = .ok) :
    ∃ u, Succeeds i s u ∧ t = u.complete .ok := by
  rcases exec_cases i s with ⟨e, he, hexec⟩ | ⟨u, hwrites, hexec⟩
  · cases hexec.symm.trans h
    exact absurd hok he
  · cases hexec.symm.trans h
    exact ⟨u, hwrites, rfl⟩

/-- The bits after INSERT's writes: the old ones and those of the element (41_filter.md R195). -/
theorem Succeeds.bitAt_insert {s u : State} (h : Succeeds .insert s u) (p : Nat) :
    u.bitAt p = true ↔ s.bitAt p = true ∨ ∃ i, i < s.k.toNat ∧ elementPosition s.element s.size.toNat i = p := by
  cases h
  exact arrayBit_insertBits _ _ _ _ _ _ _

/-- INSERT leaves the filter's size, hash count and STATUS.INIT (41_filter.md R195). -/
theorem Succeeds.filter_insert {s u : State} (h : Succeeds .insert s u) :
    u.inited = s.inited ∧ u.size = s.size ∧ u.k = s.k := by
  cases h
  exact ⟨rfl, rfl, rfl⟩

/-- After INSERT's writes the filter holds the element (41_filter.md R205). -/
theorem Succeeds.holds_inserted {s u : State} (h : Succeeds .insert s u) : u.HoldsElement s.element := by
  obtain ⟨-, hsize, hk⟩ := h.filter_insert
  intro i hi
  rw [hsize, h.bitAt_insert]
  exact .inr ⟨i, hk ▸ hi, rfl⟩

/-- MEMBER after CONTAINS's write says whether the filter holds the element (41_filter.md R201). -/
theorem Succeeds.member_contains {s u : State} (h : Succeeds .contains s u) :
    u.member = true ↔ s.HoldsElement s.element := by
  cases h
  exact containsBits_iff _ _ _ _ _ _

/-- CONTAINS succeeds only on a filter (41_filter.md R200). -/
theorem Succeeds.inited_contains {s u : State} (h : Succeeds .contains s u) : s.inited = true := by
  cases h
  assumption

/-- CONTAINS that completes with OK says whether the filter holds the element (41_filter.md R201). -/
theorem member_of_contains_ok {s t : State} (h : exec .contains s = .next t) (hok : t.err = .ok) :
    t.member = true ↔ s.HoldsElement s.element := by
  obtain ⟨u, hwrites, rfl⟩ := succeeds_of_exec_ok h hok
  exact hwrites.member_contains

/-- On a filter, CONTAINS of an element that fits completes with OK (41_filter.md R200). -/
theorem exec_contains_ok {s : State} (hinit : s.inited = true) (hfits : s.elemLen.toNat ≤ s.params.maxElemBytes) :
    ∃ t, exec .contains s = .next t ∧ t.err = .ok :=
  ⟨_, execContains_of_fits hinit ((State.elemTooLong_false_iff s).2 hfits), rfl⟩

/-- An INSERT, failed or not, keeps every set bit (41_filter.md R196). -/
theorem exec_insert_keeps_bits {s t : State} (h : exec .insert s = .next t) {p : Nat} (hp : s.bitAt p = true) :
    t.bitAt p = true := by
  rcases exec_cases .insert s with ⟨e, -, hexec⟩ | ⟨u, hwrites, hexec⟩
  · cases hexec.symm.trans h
    exact hp
  · cases hexec.symm.trans h
    exact (hwrites.bitAt_insert p).2 (.inl hp)

end Sys2Proof.Machine
end

section
/-! No false negatives (41_filter.md R205). -/

namespace Sys2Proof.Machine

/-- What an INSERT of `e` leaves behind and quiet steps keep: as long as there is a filter, it has a size and holds `e`.
DEINIT meets it with no filter at all. -/
def State.Remembers (e : List Byte) (s : State) : Prop :=
  s.inited = true → 1 ≤ s.size.toNat ∧ s.HoldsElement e

/-- Keeping STATUS.INIT, SIZE and K, and every set bit of the filter, keeps a remembered element. -/
theorem State.Remembers.of_bits_kept {e : List Byte} {s t : State} (h : s.Remembers e) (hinited : t.inited = s.inited)
    (hsize : t.size = s.size) (hk : t.k = s.k)
    (hbits : ∀ p, p < s.size.toNat → s.bitAt p = true → t.bitAt p = true) : t.Remembers e := by
  intro hinit
  obtain ⟨hpos, hholds⟩ := h (hinited ▸ hinit)
  refine ⟨hsize ▸ hpos, fun i hi => ?_⟩
  rw [hsize]
  exact hbits _ (elementPosition_lt e hpos i) (hholds i (hk ▸ hi))

/-- Every command but INIT keeps a remembered element: INSERT only sets bits, DEINIT removes the filter, the others
leave it (41_filter.md R185, R195, R205). -/
theorem Succeeds.remembers {e : List Byte} {i : Instr} {s u : State} (h : Succeeds i s u) (hinit : i ≠ .init)
    (hs : s.Remembers e) : u.Remembers e := by
  have bits_left : ∀ {v : State}, v.inited = s.inited → v.size = s.size → v.k = s.k → v.bitAt = s.bitAt →
      v.Remembers e :=
    fun hinited hsize hk hbits => hs.of_bits_kept hinited hsize hk fun _ _ hp => hbits ▸ hp
  cases h with
  | init => exact absurd rfl hinit
  | deinit =>
    intro hinited
    cases hinited
  | hash => exact bits_left rfl rfl rfl rfl
  | derive => exact bits_left rfl rfl rfl rfl
  | contains => exact bits_left rfl rfl rfl rfl
  | insert _ hi hfits =>
    exact hs.of_bits_kept rfl rfl rfl fun p _ hp => ((Succeeds.insert s hi hfits).bitAt_insert p).2 (.inl hp)

/-- Every quiet step keeps a remembered element, by what a step can do (41_filter.md R205). -/
theorem QuietStep.remembers {e : List Byte} {s t : State} (h : QuietStep s t) (hs : s.Remembers e) : t.Remembers e := by
  cases stepEffect_of_step h.stepped with
  | host op hmove =>
    obtain ⟨hsize, hk, hinited, -, -, -, -⟩ := hostStep_sameResults s.advanceSchedule op
    exact hs.of_bits_kept hinited hsize hk fun p hp => h.noBitCleared op hmove p (by omega)
  | failed => exact hs
  | succeeded w i u hmove hdecode hwrites =>
    refine hwrites.remembers ?_ hs
    rintro rfl
    exact h.noInit w hmove hdecode rfl
  | reset hmove => exact absurd hmove h.noReset
  | idle _ => exact hs

/-- Settles O31: an INSERT makes the filter remember its element, every quiet step keeps that, and a CONTAINS that
completes with OK answers by it. -/
theorem noFalseNegatives : Obligations.NoFalseNegatives := by
  intro s t u v hinv hinsert hok hrun helement hcontains hok'
  obtain ⟨s', hwrites, rfl⟩ := succeeds_of_exec_ok hinsert hok
  obtain ⟨hinited, hsize, -⟩ := hwrites.filter_insert
  have hinserted : (s'.complete .ok).Remembers s.element := fun hinit =>
    ⟨hsize ▸ (hinv.filterOn (hinited ▸ hinit)).1, hwrites.holds_inserted⟩
  have hquiet : u.Remembers s.element := hrun.keeps (fun _ _ hs hstep => hstep.remembers hs) hinserted
  obtain ⟨v', hanswer, rfl⟩ := succeeds_of_exec_ok hcontains hok'
  obtain ⟨-, hholds⟩ := hquiet hanswer.inited_contains
  exact hanswer.member_contains.2 (helement ▸ hholds)

end Sys2Proof.Machine
end

section
/-! INIT, DEINIT and DERIVE: every outcome, with all that they leave (41_filter.md R180 to R190). -/

namespace Sys2Proof.Machine

/-- Settles O12: the array is cleared up to CFG_SIZE and read as before from there on. -/
theorem initCommand : Obligations.InitCommand := by
  intro s hsize hmax hk
  refine ⟨_, execInit_of_good ((State.badConfig_false_iff s).2 ⟨hsize, hmax, hk⟩), rfl, fun j hj => ?_, fun j hj => ?_⟩
  · exact (arrayByte_clear s.epoch s.bits s.cfgSize.toNat j).trans (if_pos hj)
  · exact (arrayByte_clear s.epoch s.bits s.cfgSize.toNat j).trans (if_neg (by omega))

/-- Settles O13: each of the three conditions is INIT's check, which comes before any write. -/
theorem failingInitChangesNothing : Obligations.FailingInitChangesNothing :=
  fun s hbad => execInit_of_bad ((State.badConfig_iff s).2 hbad)

/-- Without a filter every byte of the bit-array window reads 0 (20_memory.md R88). -/
theorem State.windowByte_of_uninit {s : State} (h : s.inited = false) (j : Nat) : s.windowByte j = 0 := by
  simp [State.windowByte, State.inFilter, h]

/-- Settles O14: DEINIT has no check and does not touch the array; without a filter the window is closed. -/
theorem deinitCommand : Obligations.DeinitCommand :=
  ⟨by decide, fun _ => ⟨_, rfl, rfl, fun _ => rfl, State.windowByte_of_uninit rfl⟩⟩

/-- Settles O11, by whether the element is too long. -/
theorem deriveCommand : Obligations.DeriveCommand := by
  refine ⟨by decide, fun s => ⟨fun hfits => ?_, fun hlong => ?_⟩⟩
  · exact execDerive_of_fits ((State.elemTooLong_false_iff s).2 hfits)
  · exact execDerive_of_long ((State.elemTooLong_iff s).2 hlong)

end Sys2Proof.Machine
end

section
/-! INSERT: which bits it sets, in what order, and how many are set afterwards (41_filter.md R195, R196, R207). -/

namespace Sys2Proof.Machine

open SpecForms

/-- Settles O15: a bit is set by the loop exactly for one of the k positions, and no other byte is written. -/
theorem insertCommand : Obligations.InsertCommand := by
  intro s hinit hlen
  have hfits : s.elemTooLong = false := (State.elemTooLong_false_iff s).2 hlen
  refine ⟨_, execInsert_of_fits hinit hfits, rfl, (Succeeds.insert s hinit hfits).bitAt_insert, fun j hj => ?_⟩
  exact congrArg (Option.getD · _) (get?_insertBits_other _ _ _ _ _ _ j hj)

/-- The bit array after INSERTs of the listed elements, first to last (41_filter.md R196). -/
def insertAll (epoch size k : Nat) (m : Memory) (es : List (List Byte)) : Memory :=
  es.foldl (fun m e => insertBits epoch size (digest1 e) (digest2 e) m k) m

theorem arrayBit_insertAll (epoch size k : Nat) (m : Memory) (es : List (List Byte)) (p : Nat) :
    arrayBit epoch (insertAll epoch size k m es) p = true ↔
      arrayBit epoch m p = true ∨ ∃ e, e ∈ es ∧ ∃ i, i < k ∧ elementPosition e size i = p := by
  induction es generalizing m with
  | nil => simp [insertAll]
  | cons e es ih =>
    calc arrayBit epoch (insertAll epoch size k m (e :: es)) p = true
      _ ↔ arrayBit epoch (insertBits epoch size (digest1 e) (digest2 e) m k) p = true ∨
          ∃ x, x ∈ es ∧ ∃ i, i < k ∧ elementPosition x size i = p := ih _
      _ ↔ (arrayBit epoch m p = true ∨ ∃ i, i < k ∧ elementPosition e size i = p) ∨
          ∃ x, x ∈ es ∧ ∃ i, i < k ∧ elementPosition x size i = p := or_congr_left (arrayBit_insertBits _ _ _ _ _ _ _)
      _ ↔ _ := by simp only [List.mem_cons, or_and_right, exists_or, exists_eq_left, or_assoc]

/-- Settles O29: by induction over the elements the array is the union, which does not see order or repetition. -/
theorem insertsOrTheUnionOfAddressedBits : Obligations.InsertsOrTheUnionOfAddressedBits := by
  refine ⟨arrayBit_insertAll, fun epoch size k m es fs hsame j => ?_, fun s hinit hlen => ?_⟩
  · refine arrayByte_ext fun q _ => Bool.eq_iff_iff.2 ?_
    have hes := arrayBit_insertAll epoch size k m es q
    simp only [hsame] at hes
    exact hes.trans (arrayBit_insertAll epoch size k m fs q).symm
  · exact ⟨_, execInsert_of_fits hinit ((State.elemTooLong_false_iff s).2 hlen), rfl⟩

/-- Where every set bit stays set, no fewer are set below any position. -/
theorem setBitsBelow_mono {s t : State} (h : ∀ p, s.bitAt p = true → t.bitAt p = true) (n : Nat) :
    setBitsBelow s n ≤ setBitsBelow t n := by
  induction n with
  | zero => exact Nat.le_refl 0
  | succ p ih =>
    refine Nat.add_le_add ih ?_
    by_cases hp : s.bitAt p = true
    · rw [if_pos hp, if_pos (h p hp)]
    · rw [if_neg hp]
      exact Nat.zero_le _

/-- Settles O30: an INSERT keeps every set bit, so it loses none from the count. -/
theorem setBitsNeverDecrease : Obligations.SetBitsNeverDecrease :=
  fun _ _ hinsert => setBitsBelow_mono fun _ => exec_insert_keeps_bits hinsert

end Sys2Proof.Machine
end

section
/-! CONTAINS: the spec's loop with its early exit is the conjunction over the k bits (41_filter.md R200, R201). -/

namespace Sys2Proof.Machine

open SpecForms

/-- The loop from index i on, with n indexes left, gives 1 exactly if none of the n bits is clear. -/
theorem memberEarlyExit_iff (bit : Nat → Bool) (h1 h2 : Word) (size i n : Nat) :
    memberEarlyExit bit h1 h2 size i n = true ↔
      ∀ j, j < n → bit (bitPosition (derivedHash h1 h2 (i + j)) size) = true := by
  induction n generalizing i with
  | zero => simp [memberEarlyExit]
  | succ n ih =>
    simp only [memberEarlyExit, Bool.if_false_right, Bool.and_eq_true, decide_eq_true_eq, ih, Nat.forall_lt_succ_left,
      Nat.add_right_comm i 1, Nat.add_assoc i]
    rfl

theorem memberEarlyExit_zero_iff (bit : Nat → Bool) (h1 h2 : Word) (size k : Nat) :
    memberEarlyExit bit h1 h2 size 0 k = true ↔ ∀ i, i < k → bit (bitPosition (derivedHash h1 h2 i) size) = true := by
  simpa only [Nat.zero_add] using memberEarlyExit_iff bit h1 h2 size 0 k

theorem memberEarlyExit_eq_containsBits (s : State) (h1 h2 : Word) (size k : Nat) :
    memberEarlyExit s.bitAt h1 h2 size 0 k = containsBits s.epoch size h1 h2 s.bits k :=
  Bool.eq_iff_iff.2 ((memberEarlyExit_zero_iff s.bitAt h1 h2 size k).trans
    (containsBits_iff s.epoch size h1 h2 s.bits k).symm)

/-- Settles O16: the machine's conjunction is the value of the spec's loop. -/
theorem containsCommand : Obligations.ContainsCommand := by
  intro s hinit hlen
  rw [memberEarlyExit_eq_containsBits]
  exact execContains_of_fits hinit ((State.elemTooLong_false_iff s).2 hlen)

/-- Settles O17: MEMBER is the loop's value (O16), and the loop's value is the conjunction. -/
theorem memberIsTheConjunction : Obligations.MemberIsTheConjunction := by
  intro s t hinit hlen hcontains
  cases (containsCommand s hinit hlen).symm.trans hcontains
  exact ⟨memberEarlyExit_zero_iff _ _ _ _ _, rfl⟩

/-- Settles O32: the digests and the k positions come from the element, SIZE and K, and equal bytes have equal bits. -/
theorem sameElementSameAnswers : Obligations.SameElementSameAnswers := by
  refine ⟨fun s t s' t' helement hs ht hsok htok => ?_, fun s t s' t' helement hsize hk hbytes hs ht hsok htok => ?_⟩
  · obtain ⟨_, ⟨⟩, rfl⟩ := succeeds_of_exec_ok hs hsok
    obtain ⟨_, ⟨⟩, rfl⟩ := succeeds_of_exec_ok ht htok
    exact ⟨congrArg digest1 helement, congrArg digest2 helement⟩
  · have hbits : s.bitAt = t.bitAt := funext fun p => by
      rw [State.bitAt_eq_getLsbD, State.bitAt_eq_getLsbD, hbytes]
    rw [Bool.eq_iff_iff, member_of_contains_ok hs hsok, member_of_contains_ok ht htok]
    simp only [State.HoldsElement, helement, hsize, hk, hbits]

end Sys2Proof.Machine
end

section
/-! Special filters: what lies past the addressed bits, all bits set, none set, one byte, the empty element
(41_filter.md R174, R208 to R210). -/

namespace Sys2Proof.Machine

/-- CONTAINS on another bit array whose k bits answer the same does the same to everything else, also where it fails
(41_filter.md R201). -/
theorem exec_contains_of_same_bits {s t : State} {m : Memory} (h : exec .contains s = .next t)
    (hsame : containsBits s.epoch s.size.toNat (digest1 s.element) (digest2 s.element) m s.k.toNat =
      containsBits s.epoch s.size.toNat (digest1 s.element) (digest2 s.element) s.bits s.k.toNat) :
    exec .contains { s with bits := m } = .next { t with bits := m } := by
  rcases s.inited.eq_false_or_eq_true with hinit | hinit
  · rcases s.elemTooLong.eq_false_or_eq_true with hlong | hfits
    · cases (execContains_of_long hinit hlong).symm.trans h
      exact execContains_of_long (s := { s with bits := m }) hinit hlong
    · cases (execContains_of_fits hinit hfits).symm.trans h
      rw [← hsame]
      exact execContains_of_fits (s := { s with bits := m }) hinit hfits
  · cases (execContains_of_uninit hinit).symm.trans h
    exact execContains_of_uninit (s := { s with bits := m }) hinit

theorem containsBits_congr {epoch size : Nat} {h1 h2 : Word} {m n : Memory} (hsize : 1 ≤ size)
    (h : ∀ p, p < size → arrayBit epoch m p = arrayBit epoch n p) (k : Nat) :
    containsBits epoch size h1 h2 m k = containsBits epoch size h1 h2 n k := by
  rw [Bool.eq_iff_iff, containsBits_iff, containsBits_iff]
  exact forall₂_congr fun i _ => by rw [h _ (bitPosition_lt _ hsize)]

/-- INSERT, failed or not, leaves every bit from position S on (41_filter.md R174). -/
theorem exec_insert_keeps_bits_from_size {s t : State} (hsize : 1 ≤ s.size.toNat) (h : exec .insert s = .next t)
    {p : Nat} (hp : s.size.toNat ≤ p) : t.bitAt p = s.bitAt p := by
  rcases exec_cases .insert s with ⟨e, -, hexec⟩ | ⟨u, hwrites, hexec⟩
  · cases hexec.symm.trans h
    rfl
  · cases hexec.symm.trans h
    refine Bool.eq_iff_iff.2 ((hwrites.bitAt_insert p).trans (or_iff_left ?_))
    rintro ⟨i, -, rfl⟩
    exact absurd (elementPosition_lt s.element hsize i) (Nat.not_lt.2 hp)

/-- Settles O28: a position is a remainder by S, so it is below S, and INSERT and CONTAINS go by the positions. -/
theorem addressedBitsAreBelowSize : Obligations.AddressedBitsAreBelowSize := by
  refine ⟨fun v size hsize => ?_, fun s t hsize hexec p hp => exec_insert_keeps_bits_from_size hsize hexec hp,
    fun s t m hsize hexec hsame => ?_⟩
  · have hlt := bitPosition_lt v hsize
    refine ⟨hlt, Nat.div_le_div_right (by omega), by omega, Nat.div_add_mod _ 8, by omega⟩
  · exact ⟨_, exec_contains_of_same_bits hexec (containsBits_congr hsize hsame _), rfl⟩

/-- Settles O33: every position of the element is below S, where every bit is set. -/
theorem saturatedFilterContainsEverything : Obligations.SaturatedFilterContainsEverything := by
  intro s hinit hsize hset elem n hlen
  obtain ⟨t, ht, hok⟩ := exec_contains_ok (s := { s with elem := elem, elemLen := n }) hinit hlen
  exact ⟨t, ht, hok, (member_of_contains_ok ht hok).2 fun i _ => hset _ (elementPosition_lt _ hsize i)⟩

/-- After an INIT that completes with OK there is a filter, with no bit set below position S (41_filter.md R180,
R181). -/
theorem fresh_of_init_ok {s t : State} (h : exec .init s = .next t) (hok : t.err = .ok) :
    t.inited = true ∧ 1 ≤ t.size.toNat ∧ 1 ≤ t.k.toNat ∧ ∀ p, p < t.size.toNat → t.bitAt p = false := by
  obtain ⟨_, ⟨_, hgood⟩, rfl⟩ := succeeds_of_exec_ok h hok
  obtain ⟨hsize, -, hk⟩ := (State.badConfig_false_iff s).1 hgood
  refine ⟨rfl, hsize, hk, fun p hp => ?_⟩
  exact (arrayBit_clear s.epoch s.bits s.cfgSize.toNat p).trans (if_pos (Nat.lt_of_le_of_lt (Nat.div_le_self p 8) hp))

/-- With no bit set below position S a filter holds no element: not even its first bit. -/
theorem not_holds_of_clear {s : State} {e : List Byte} (hsize : 1 ≤ s.size.toNat) (hk : 1 ≤ s.k.toNat)
    (hclear : ∀ p, p < s.size.toNat → s.bitAt p = false) : ¬ s.HoldsElement e := fun hholds => by
  have hset := hholds 0 hk
  rw [hclear _ (elementPosition_lt e hsize 0)] at hset
  cases hset

/-- Settles O36: INIT leaves every bit below S clear and k >= 1, so the filter holds nothing. -/
theorem freshFilterContainsNothing : Obligations.FreshFilterContainsNothing := by
  intro s t hexec hok elem n hlen
  obtain ⟨hinit, hsize, hk, hclear⟩ := fresh_of_init_ok hexec hok
  obtain ⟨u, hu, huok⟩ := exec_contains_ok (s := { t with elem := elem, elemLen := n }) hinit hlen
  refine ⟨u, hu, huok, Bool.eq_false_iff.2 fun hmember => ?_⟩
  exact not_holds_of_clear hsize hk hclear ((member_of_contains_ok hu huok).1 hmember)

/-- In a filter of one byte every hash addresses bit 0 (41_filter.md R209). -/
theorem bitPosition_one (v : Word) : bitPosition v 1 = 0 := Nat.mod_one _

/-- Settles O34: the k >= 1 positions are all 0, so INSERT sets bit 0 of the empty byte alone and saturates the
filter. -/
theorem boundaryFilter : Obligations.BoundaryFilter := by
  intro s hinit hsize hk hzero hlen
  obtain ⟨t, hinsert, hframe, hbits, -⟩ := insertCommand s hinit hlen
  have hbit : ∀ b, b < 8 → (t.bitAt b = true ↔ b = 0) := by
    intro b hb
    have hclear : s.bitAt b = false := by
      rw [State.bitAt_eq_getLsbD, Nat.div_eq_of_lt hb, hzero]
      exact BitVec.getLsbD_zero
    rw [hbits b, hclear, hsize]
    simp only [Nat.mod_one, Bool.false_eq_true, false_or]
    exact ⟨fun ⟨_, _, h⟩ => h.symm, fun h => ⟨0, hk, h.symm⟩⟩
  have hbyte : t.bitsByte 0 = 0x01 := by
    refine BitVec.eq_of_getLsbD_eq fun b hb => ?_
    have h := hbit b hb
    rw [State.bitAt_eq_getLsbD, Nat.div_eq_of_lt hb, Nat.mod_eq_of_lt hb] at h
    rw [Bool.eq_iff_iff, h]
    simp [BitVec.getLsbD_one]
  have hinit' : t.inited = true := hframe ▸ hinit
  have hsize' : t.size.toNat = 1 := hframe ▸ hsize
  refine ⟨fun v => hsize ▸ bitPosition_one v, t, hinsert, hframe ▸ rfl, hbyte, ?_⟩
  refine saturatedFilterContainsEverything t hinit' (Nat.le_of_eq hsize'.symm) fun p hp => ?_
  exact (hbit p (by omega)).2 (by omega)

/-- Settles O35: an empty element is never too long, so each of the four completes with OK. -/
theorem emptyElement : Obligations.EmptyElement := by
  intro s i hlen hcommand
  have hfits : s.elemTooLong = false := (State.elemTooLong_false_iff s).2 (by simp [hlen])
  rcases hcommand with rfl | rfl | ⟨rfl | rfl, hinit⟩
  · exact ⟨_, execHash_of_fits hfits, rfl⟩
  · exact ⟨_, execDerive_of_fits hfits, rfl⟩
  · exact ⟨_, execInsert_of_fits hinit hfits, rfl⟩
  · exact ⟨_, execContains_of_fits hinit hfits, rfl⟩

end Sys2Proof.Machine
end

section
/-! Who moves and what the move does: the engine runs the decoded command, the host makes its next access, and none of
the moves is stuck (60_exceptions.md R230, R232, R247, R248). -/

namespace Sys2Proof.Machine

theorem engineStep_of_decode {w : Word} {i : Instr} (hdecode : decode w = .ok i) (s : State) :
    engineStep w s = exec i s := by
  rw [engineStep, hdecode]

theorem nextMove_of_scheduled_engine {s : State} {w : Word} {rest : List Mover} (hphase : s.phase = .busy w)
    (hschedule : s.schedule = .engine :: rest) : s.nextMove = .engine w := by
  simp [State.nextMove, State.engineMove, hschedule, hphase]

theorem advanceSchedule_eq {s : State} {rest : List Mover} (h : s.schedule.tail = rest) :
    s.advanceSchedule = { s with schedule := rest } := by
  rw [State.advanceSchedule, h]

/-- When the engine moves next, a step is the body of the command in flight (R232, R247 (b)). -/
theorem step_of_engine_next {s : State} {w : Word} {i : Instr} {rest : List Mover} (hmove : s.nextMove = .engine w)
    (hdecode : decode w = .ok i) (hrest : s.schedule.tail = rest) : step s = exec i { s with schedule := rest } := by
  rw [step_of_nextMove hmove, perform, engineStep_of_decode hdecode, advanceSchedule_eq hrest]

/-- A row of the table that decodes has at most 32 bits (30_encoding.md R125). -/
theorem le_of_decodeTableWord_eq_some {n w : Nat} {i : Instr} (h : decodeTableWord n w = some i) : n ≤ 32 := by
  by_contra hwide
  rw [decodeTableWord, if_pos (Nat.lt_of_not_le hwide)] at h
  cases h

/-- Settles O4: a scheduled engine moves, and a busy one moves where nothing is scheduled; `withFetchWord` leaves a
command in flight with the engine scheduled. -/
theorem stepRunsTheDecodedCommand : Obligations.StepRunsTheDecodedCommand := by
  refine ⟨fun s w i rest hphase hdecode hschedule => ?_, fun s n w i htable => ?_⟩
  · rcases hschedule with hschedule | ⟨hschedule, rfl⟩
    · exact step_of_engine_next (nextMove_of_scheduled_engine hphase hschedule) hdecode (congrArg List.tail hschedule)
    · exact step_of_engine_next (nextMove_of_busy hphase hschedule) hdecode (congrArg List.tail hschedule)
  · have hdecode : decode (tableWord n w) = .ok i :=
      (decodeTableWord_eq_some_iff (le_of_decodeTableWord_eq_some htable) i).1 htable
    exact step_of_engine_next (s := s.withFetchWord n w) (nextMove_of_scheduled_engine rfl rfl) hdecode rfl

/-- When the host moves next, a step is its access (R247 (a)). -/
theorem step_of_access_next {s : State} {a : Access} {script : List HostOp} {rest : List Mover}
    (hmove : s.nextMove = .host (.access a)) (hscript : s.script = .access a :: script)
    (hrest : s.schedule.tail = rest) :
    step s = .next (busAccess { s with script := script, schedule := rest } a) := by
  rw [step_of_nextMove hmove, perform, advanceSchedule_eq hrest, hostStep, State.advanceScript, hscript]
  rfl

/-- Settles O5: a scheduled host moves, and it moves where nothing is scheduled and the engine is idle. -/
theorem stepPerformsTheHostAccess : Obligations.StepPerformsTheHostAccess := by
  intro s a script rest hscript hschedule
  rcases hschedule with hschedule | ⟨hschedule, rfl, hphase⟩
  · exact step_of_access_next (nextMove_of_scheduled_host hscript hschedule) hscript (congrArg List.tail hschedule)
  · exact step_of_access_next (nextMove_of_idle ((State.not_busy_iff s).2 hphase) hscript hschedule) hscript
      (congrArg List.tail hschedule)

/-- Every host operation is answered (20_memory.md R80). -/
theorem hostStep_answers (s : State) (op : HostOp) : ∃ a, (hostStep s op).answer = some a := by
  obtain ⟨t, script, a, draws, -, ht⟩ := hostStep_cases s op
  exact ⟨a, congrArg State.answer ht⟩

/-- Settles O6: every kind of move leaves a state, the host's with an answer and the engine's completed. -/
theorem noStepIsStuck : Obligations.NoStepIsStuck := by
  intro s
  rcases step_cases s with ⟨op, hmove, hstep⟩ | ⟨w, hmove, -, hstep⟩ | ⟨hmove, hstep⟩ | ⟨hmove, hstep⟩
  · exact ⟨_, hstep, fun _ _ => hostStep_answers _ op, by simp [hmove]⟩
  · obtain ⟨t, ht, hphase, hdone, -, -⟩ := engineStep_completes w s.advanceSchedule
    exact ⟨t, hstep.trans ht, by simp [hmove], fun _ _ => ⟨hphase, hdone⟩⟩
  · exact ⟨_, hstep, by simp [hmove], by simp [hmove]⟩
  · exact ⟨_, hstep, by simp [hmove], by simp [hmove]⟩

/-- Settles O7: a CMD write is acceptance while idle and a dropped write while busy. -/
theorem commandWriteIsAccepted : Obligations.CommandWriteIsAccepted := by
  refine fun s w => ⟨fun hphase => ?_, fun op hphase => ?_⟩
  · have haccept : busWrite s 0x00C .word w = (s.accept w).answered .done :=
      busWrite_reg_of_idle (r := .cmd) ((State.not_busy_iff s).2 hphase) rfl
    rw [haccept, getLsbD_statusWord, getLsbD_statusWord]
    exact ⟨rfl, by simp, by simp⟩
  · refine (busWrite_reg s .cmd w).trans ?_
    rw [State.writeReg, State.unlessBusy_of_busy _ ((State.busy_iff s).2 ⟨op, hphase⟩)]
    rfl

end Sys2Proof.Machine
end


section
/-! The error code of a command is the first that applies in the rule's order, and a failed command has no other effect
(60_exceptions.md R221 to R226, R238). -/

namespace Sys2Proof.Machine

open SpecForms

/-- A list of checks has one first error (R238). -/
theorem firstError_unique {checks : List (Prop × ErrorCode)} {e e' : ErrorCode} (h : FirstError checks e)
    (h' : FirstError checks e') : e = e' := by
  induction checks with
  | nil => exact h.trans h'.symm
  | cons c rest ih =>
    obtain ⟨happlies, hpasses⟩ := h
    obtain ⟨happlies', hpasses'⟩ := h'
    by_cases hc : c.1
    · exact (happlies hc).trans (happlies' hc).symm
    · exact ih (hpasses hc) (hpasses' hc)

/-- An error that is reported is the code of a check that applies (R238). -/
theorem exists_check_of_firstError {checks : List (Prop × ErrorCode)} {e : ErrorCode} (h : FirstError checks e)
    (he : e ≠ .ok) : ∃ c, c ∈ checks ∧ c.1 ∧ c.2 = e := by
  induction checks with
  | nil => exact absurd h he
  | cons c rest ih =>
    obtain ⟨happlies, hpasses⟩ := h
    by_cases hc : c.1
    · exact ⟨c, List.mem_cons_self, hc, (happlies hc).symm⟩
    · obtain ⟨d, hd, hdapplies⟩ := ih (hpasses hc)
      exact ⟨d, List.mem_cons_of_mem c hd, hdapplies⟩

/-! ### When each code is the first that applies -/

section
variable {i : Instr} {s : State}

theorem firstError_useBeforeInit (hi : i = .insert ∨ i = .contains) (hinit : s.inited = false) :
    FirstError (errorChecks i s) .useBeforeInit :=
  ⟨fun _ => rfl, fun hpasses => absurd ⟨hi, hinit⟩ hpasses⟩

theorem firstError_elemRange (hlong : s.params.maxElemBytes < s.elemLen.toNat)
    (hi : i = .hash ∨ i = .derive ∨ ((i = .insert ∨ i = .contains) ∧ s.inited = true)) :
    FirstError (errorChecks i s) .elemRange := by
  have hfirst : ¬ ((i = .insert ∨ i = .contains) ∧ s.inited = false) := by
    rcases hi with rfl | rfl | ⟨-, hinit⟩
    · simp
    · simp
    · simp [hinit]
  have hsecond : i = .hash ∨ i = .derive ∨ i = .insert ∨ i = .contains := hi.imp_right (Or.imp_right And.left)
  exact ⟨fun happlies => absurd happlies hfirst, fun _ =>
    ⟨fun _ => rfl, fun hpasses => absurd ⟨hsecond, hlong⟩ hpasses⟩⟩

theorem firstError_invalidConfig (hbad : s.badConfig = true) : FirstError (errorChecks .init s) .invalidConfig :=
  ⟨by simp, fun _ => ⟨by simp, fun _ =>
    ⟨fun _ => rfl, fun hpasses => absurd ⟨rfl, (State.badConfig_iff s).1 hbad⟩ hpasses⟩⟩⟩

/-- A command whose writes are made has passed every check. -/
theorem Succeeds.firstError {u : State} (h : Succeeds i s u) : FirstError (errorChecks i s) .ok := by
  cases h with
  | init _ hgood =>
    have hpasses := mt (State.badConfig_iff s).2 (Bool.eq_false_iff.1 hgood)
    exact ⟨by simp, fun _ => ⟨by simp, fun _ => ⟨fun happlies => absurd happlies.2 hpasses, fun _ => rfl⟩⟩⟩
  | deinit => simp [errorChecks, FirstError]
  | hash _ hfits | derive _ hfits =>
    have hpasses := (State.elemTooLong_false_iff s).1 hfits
    simp [errorChecks, FirstError, hpasses]
  | insert _ hinit hfits | contains _ hinit hfits =>
    have hpasses := (State.elemTooLong_false_iff s).1 hfits
    simp [errorChecks, FirstError, hinit, hpasses]

end

/-! ### What a command completes with -/

/-- Every command completes with the first error that applies (R232, R238). -/
theorem exec_firstError (i : Instr) (s : State) : ∃ t, exec i s = .next t ∧ FirstError (errorChecks i s) t.err := by
  have long : s.elemTooLong = true → s.params.maxElemBytes < s.elemLen.toNat := (State.elemTooLong_iff s).1
  cases i with
  | init =>
    cases h : s.badConfig with
    | true => exact ⟨_, execInit_of_bad h, firstError_invalidConfig h⟩
    | false => exact ⟨_, execInit_of_good h, (Succeeds.init s h).firstError⟩
  | deinit => exact ⟨_, rfl, (Succeeds.deinit s).firstError⟩
  | hash =>
    cases h : s.elemTooLong with
    | true => exact ⟨_, execHash_of_long h, firstError_elemRange (long h) (.inl rfl)⟩
    | false => exact ⟨_, execHash_of_fits h, (Succeeds.hash s h).firstError⟩
  | derive =>
    cases h : s.elemTooLong with
    | true => exact ⟨_, execDerive_of_long h, firstError_elemRange (long h) (.inr (.inl rfl))⟩
    | false => exact ⟨_, execDerive_of_fits h, (Succeeds.derive s h).firstError⟩
  | insert =>
    cases hi : s.inited with
    | false => exact ⟨_, execInsert_of_uninit hi, firstError_useBeforeInit (.inl rfl) hi⟩
    | true =>
      cases h : s.elemTooLong with
      | true => exact ⟨_, execInsert_of_long hi h, firstError_elemRange (long h) (.inr (.inr ⟨.inl rfl, hi⟩))⟩
      | false => exact ⟨_, execInsert_of_fits hi h, (Succeeds.insert s hi h).firstError⟩
  | contains =>
    cases hi : s.inited with
    | false => exact ⟨_, execContains_of_uninit hi, firstError_useBeforeInit (.inr rfl) hi⟩
    | true =>
      cases h : s.elemTooLong with
      | true => exact ⟨_, execContains_of_long hi h, firstError_elemRange (long h) (.inr (.inr ⟨.inr rfl, hi⟩))⟩
      | false => exact ⟨_, execContains_of_fits hi h, (Succeeds.contains s hi h).firstError⟩

theorem firstError_of_exec {i : Instr} {s t : State} (h : exec i s = .next t) :
    FirstError (errorChecks i s) t.err := by
  obtain ⟨u, hu, herr⟩ := exec_firstError i s
  cases hu.symm.trans h
  exact herr

/-- A command whose first error is `e` is `complete(e)` and no more (R226). -/
theorem exec_of_firstError {i : Instr} {s : State} {e : ErrorCode} (h : FirstError (errorChecks i s) e)
    (he : e ≠ .ok) : exec i s = .next (s.complete e) := by
  rcases exec_cases i s with ⟨e', -, hexec⟩ | ⟨u, hwrites, -⟩
  · rw [hexec, firstError_unique h (firstError_of_exec hexec), State.complete_err]
  · exact absurd (firstError_unique h hwrites.firstError) he

/-- Settles O18: an illegal word is `complete(ILLEGAL_CMD)`, every other word its command. -/
theorem errorPriority : Obligations.ErrorPriority := by
  refine ⟨fun w s t e hdecode hstep => ?_, fun w i s t hdecode hstep => ?_⟩
  · rw [engineStep, hdecode] at hstep
    cases hstep
    rfl
  · exact firstError_of_exec ((engineStep_of_decode hdecode s).symm.trans hstep)

@[simp] theorem State.complete_irq (s : State) (e : ErrorCode) : (s.complete e).irq = s.irqEn := Bool.and_true _

/-- Settles O19: a completion with an error is `complete(e)` alone. -/
theorem failedCommandHasNoOtherEffect : Obligations.FailedCommandHasNoOtherEffect := by
  intro w s t hstep herr
  rcases engineStep_cases w s with ⟨e, -, h⟩ | ⟨i, u, -, -, h⟩
  · cases h.symm.trans hstep
    exact ⟨rfl, State.complete_irq s e⟩
  · cases h.symm.trans hstep
    exact absurd rfl herr

/-- Settles O20: the check for a filter comes first, and it is the only one with this code. -/
theorem useBeforeInit : Obligations.UseBeforeInit := by
  refine ⟨fun s i hi hinit => exec_of_firstError (firstError_useBeforeInit hi hinit) (by decide),
    fun s t i hi hexec herr => ?_⟩
  obtain ⟨c, hc, happlies, hcode⟩ := exists_check_of_firstError (firstError_of_exec hexec) (by simp [herr])
  rw [herr] at hcode
  simp only [errorChecks, List.mem_cons, List.not_mem_nil, or_false] at hc
  rcases hc with rfl | rfl | rfl
  · obtain ⟨rfl | rfl, -⟩ := happlies <;> simp at hi
  · cases hcode
  · cases hcode

/-- Settles O21: with a filter, or where none is needed, the length is the first check that applies. -/
theorem tooLongElement : Obligations.TooLongElement :=
  fun _ _ hlong hi => exec_of_firstError (firstError_elemRange hlong hi) (by decide)

/-- Settles O22: the checks read the length, the configuration and STATUS.INIT, none of the data. -/
theorem dataRaisesNoError : Obligations.DataRaisesNoError := by
  intro i s elem bits seed hashOut h1 h2
  obtain ⟨t, ht, hterr⟩ := exec_firstError i s
  obtain ⟨u, hu, huerr⟩ :=
    exec_firstError i { s with elem := elem, bits := bits, seed := seed, hashOut := hashOut, h1 := h1, h2 := h2 }
  exact ⟨t, u, ht, hu, firstError_unique huerr hterr⟩

end Sys2Proof.Machine
end

section
/-! A command in flight completes with the same results before and after a host step (60_exceptions.md R233). -/

namespace Sys2Proof.Machine

open SpecForms

/-- A command whose writes are allowed makes them and completes with OK (60_exceptions.md R232). -/
theorem exec_of_succeeds {i : Instr} {s u : State} (h : Succeeds i s u) : exec i s = .next (u.complete .ok) := by
  cases h with
  | init _ hgood => exact execInit_of_good hgood
  | deinit => rfl
  | hash _ hfits => exact execHash_of_fits hfits
  | derive _ hfits => exact execDerive_of_fits hfits
  | insert _ hinit hfits => exact execInsert_of_fits hinit hfits
  | contains _ hinit hfits => exact execContains_of_fits hinit hfits

section
variable (s : State) (irqEn done ovr : Bool) (answer : Option Answer) (script : List HostOp) (draws : Nat)

/-- `s` with other values in the fields that a host step can move while a command is in flight (20_memory.md R95): three
flags, and the model's own fields for the host. -/
def State.setHostSide : State :=
  { s with irqEn := irqEn, done := done, ovr := ovr, answer := answer, script := script, draws := draws }

variable {s} {i : Instr} {u : State}

/-- No command reads a field of the host's side: it makes the same writes. -/
theorem Succeeds.setHostSide (h : Succeeds i s u) :
    Succeeds i (s.setHostSide irqEn done ovr answer script draws)
      (u.setHostSide irqEn done ovr answer script draws) := by
  cases h with
  | init _ hgood => exact .init _ hgood
  | deinit => exact .deinit _
  | hash _ hfits => exact .hash _ hfits
  | derive _ hfits => exact .derive _ hfits
  | insert _ hinit hfits => exact .insert _ hinit hfits
  | contains _ hinit hfits => exact .contains _ hinit hfits

/-- No check reads a field of the host's side either, so a command completes with the same error or the same writes. -/
theorem exec_setHostSide {t : State} (h : exec i s = .next t) :
    exec i (s.setHostSide irqEn done ovr answer script draws) =
      .next (t.setHostSide irqEn true ovr answer script draws) := by
  rcases exec_cases i s with ⟨e, he, hexec⟩ | ⟨u, hwrites, hexec⟩
  · cases hexec.symm.trans h
    have hfirst : FirstError (errorChecks i s) e := firstError_of_exec hexec
    exact exec_of_firstError (s := s.setHostSide irqEn done ovr answer script draws) hfirst he
  · cases hexec.symm.trans h
    exact exec_of_succeeds (hwrites.setHostSide irqEn done ovr answer script draws)

theorem engineStep_setHostSide {w : Word} {t : State} (h : engineStep w s = .next t) :
    engineStep w (s.setHostSide irqEn done ovr answer script draws) =
      .next (t.setHostSide irqEn true ovr answer script draws) := by
  unfold engineStep at h ⊢
  cases hdecode : decode w with
  | ok i =>
    rw [hdecode] at h
    exact exec_setHostSide irqEn done ovr answer script draws h
  | error e =>
    rw [hdecode] at h
    cases h
    rfl

end

/-- While a command is in flight a host step moves the host's side alone (20_memory.md R94, R95). -/
theorem hostStep_of_busy {s : State} (hbusy : s.busy = true) (op : HostOp) :
    ∃ irqEn done ovr answer script draws, hostStep s op = s.setHostSide irqEn done ovr answer script draws := by
  obtain ⟨u, script, a, draws, heffect, hhost⟩ := hostStep_cases s op
  obtain ⟨irqEn, done, ovr, rfl⟩ := heffect.flags_of_busy hbusy
  exact ⟨irqEn, done, ovr, some a, script, draws, hhost⟩

/-- Settles O27: the host step moves the host's side, which the completion neither reads nor puts into a result. -/
theorem resultsDoNotDependOnTheSchedule : Obligations.ResultsDoNotDependOnTheSchedule := by
  intro s w op hphase
  obtain ⟨irqEn, done, ovr, answer, script, draws, hhost⟩ := hostStep_of_busy ((State.busy_iff s).2 ⟨w, hphase⟩) op
  obtain ⟨t, ht, -⟩ := engineStep_completes w s
  have hu := engineStep_setHostSide irqEn done ovr answer script draws ht
  rw [← hhost] at hu
  exact ⟨t, _, ht, hu, rfl, rfl, rfl, rfl, rfl, rfl, rfl, rfl, rfl, rfl⟩

end Sys2Proof.Machine
end

section
/-! Where `irq` comes from (60_exceptions.md R236, R237). -/

namespace Sys2Proof.Machine

/-- The conclusion of O42 for one pair of states. -/
def InterruptSources (s t : State) : Prop :=
  (∀ w, s.nextMove = .engine w → t.irq = s.irqEn) ∧
  (s.irq = false → t.irq = true → (∃ w, s.nextMove = .engine w) ∨
    (s.done = true ∧
      ∃ addr w, s.nextMove = .host (.access (.write addr .word w)) ∧ addr.toNat = 0x004 ∧ w.getLsbD 0 = true)) ∧
  (t.ovr ≠ s.ovr → t.ovr = true → t.irq = s.irq) ∧
  (∀ addr n w, s.busy = true → s.nextMove = .host (.access (.write addr n w)) → addr.toNat ≠ 0x004 →
    addr.toNat ≠ 0x008 → t.irq = s.irq) ∧
  (∀ b : Bool, { s with ovr := b }.irq = s.irq)

/-! `irq` under one bus write: it rises by enabling a pending DONE, and a dropped write leaves it. -/

section
variable {s : State} {addr : Word} {n : Width} {v : Word}

theorem State.irq_congr {s t : State} (hirqEn : t.irqEn = s.irqEn) (hdone : t.done = s.done) : t.irq = s.irq := by
  rw [State.irq, State.irq, hirqEn, hdone]

theorem busWrite_raises_irq (hs : s.irq = false) (ht : (busWrite s addr n v).irq = true) :
    s.done = true ∧ n = .word ∧ addr.toNat = 0x004 ∧ v.getLsbD 0 = true := by
  obtain ⟨htirqEn, htdone⟩ := Bool.and_eq_true_iff.1 ht
  have hdone : s.done = true := done_of_busWrite_done htdone
  obtain ⟨-, -, -, hirqEn, -⟩ := busWrite_flags s addr n v
  rcases hirqEn with hkept | ⟨hn, haddr, hset⟩
  · simp [State.irq, hdone, ← hkept, htirqEn] at hs
  · exact ⟨hdone, hn, haddr, hset ▸ htirqEn⟩

theorem busWrite_irq_of_sets_ovr (hne : (busWrite s addr n v).ovr ≠ s.ovr) (ht : (busWrite s addr n v).ovr = true) :
    (busWrite s addr n v).irq = s.irq := by
  obtain ⟨-, -, hovr, -⟩ := busWrite_flags s addr n v
  rcases hovr with hkept | ⟨-, -, hdone, hirqEn⟩ | ⟨-, -, hcleared⟩
  · exact absurd hkept hne
  · exact State.irq_congr hirqEn hdone
  · obtain ⟨hs, -⟩ := Bool.and_eq_true_iff.1 (hcleared.symm.trans ht)
    exact absurd (ht.trans hs.symm) hne

theorem busWrite_irq_of_busy (hbusy : s.busy = true) (hctrl : addr.toNat ≠ 0x004) (hstatus : addr.toNat ≠ 0x008) :
    (busWrite s addr n v).irq = s.irq := by
  obtain ⟨hdone, -, -, hirqEn, -⟩ := busWrite_flags s addr n v
  simp only [hctrl, hstatus, hbusy, false_and, and_false, or_false, reduceCtorEq] at hdone hirqEn
  exact State.irq_congr hirqEn hdone

end

/-- A bus write, from a state that has moved on in the script and the schedule only. -/
theorem interruptSources_of_busWrite {s : State} {addr : Word} {n : Width} {v : Word}
    (hmove : s.nextMove = .host (.access (.write addr n v))) :
    InterruptSources s (busWrite s.advanceSchedule.advanceScript addr n v) := by
  refine ⟨fun w hengine => ?_, fun hs ht => ?_, busWrite_irq_of_sets_ovr (s := s.advanceSchedule.advanceScript),
    fun addr' n' v' hbusy hmove' => ?_, fun _ => rfl⟩
  · cases hmove.symm.trans hengine
  · obtain ⟨hdone, rfl, haddr, hbit⟩ := busWrite_raises_irq (s := s.advanceSchedule.advanceScript) hs ht
    exact .inr ⟨hdone, addr, v, hmove, haddr, hbit⟩
  · cases hmove.symm.trans hmove'
    exact busWrite_irq_of_busy (s := s.advanceSchedule.advanceScript) hbusy

/-- A completion sets DONE, so `irq` is IRQ_EN, and leaves OVR (R232, R236). -/
theorem interruptSources_of_complete {s u : State} {w : Word} {e : ErrorCode} (hmove : s.nextMove = .engine w)
    (hirqEn : u.irqEn = s.irqEn) (hovr : u.ovr = s.ovr) : InterruptSources s (u.complete e) :=
  ⟨fun _ _ => (State.complete_irq u e).trans hirqEn, fun _ _ => .inl ⟨w, hmove⟩, fun hne => absurd hovr hne,
    fun addr n v _ hhost => by simp [hmove] at hhost, fun _ => rfl⟩

/-- A step that is neither a completion nor a write, and raises neither `irq` nor OVR, needs no source. -/
theorem interruptSources_of_quiet {s t : State} (hengine : ∀ w, s.nextMove ≠ .engine w)
    (hwrite : ∀ addr n v, s.nextMove ≠ .host (.access (.write addr n v))) (hirq : t.irq = true → s.irq = true)
    (hovr : t.ovr = true → s.ovr = true) : InterruptSources s t := by
  refine ⟨fun w hmove => absurd hmove (hengine w), fun hs ht => ?_, fun hne ht => ?_,
    fun addr n v _ hmove => absurd hmove (hwrite addr n v), fun _ => rfl⟩
  · simp [hirq ht] at hs
  · exact absurd (ht.trans (hovr ht).symm) hne

/-- Settles O42, by what a step can do: a bus write, a completion, or a step that raises nothing. -/
theorem interruptComesFromCompletion : Obligations.InterruptComesFromCompletion := by
  intro s t hstep
  show InterruptSources s t
  cases stepEffect_of_step hstep with
  | host op hmove =>
    by_cases hw : ∃ addr n v, op = .access (.write addr n v)
    · obtain ⟨addr, n, v, rfl⟩ := hw
      exact interruptSources_of_busWrite hmove
    · have hne : ∀ addr n v, op ≠ .access (.write addr n v) := fun addr n v heq => hw ⟨addr, n, v, heq⟩
      obtain ⟨hdone, -, hovr, hirqEn, -⟩ := hostStep_flags s.advanceSchedule op hne
      exact interruptSources_of_quiet (by simp [hmove]) (by simpa [hmove] using hne)
        (State.irq_congr hirqEn hdone).symm.trans hovr.symm.trans
  | failed w e hmove _ => exact interruptSources_of_complete hmove rfl rfl
  | succeeded w i u hmove _ hwrites =>
    obtain ⟨-, -, -, -, -, hirqEn, hovr, -⟩ := hwrites.frame
    exact interruptSources_of_complete hmove hirqEn hovr
  | reset hmove => exact interruptSources_of_quiet (by simp [hmove]) (by simp [hmove]) (by simp [State.irq]) (by simp)
  | idle hmove => exact interruptSources_of_quiet (by simp [hmove]) (by simp [hmove]) id id

end Sys2Proof.Machine
end

section
/-! Bit-array bytes outside the active filter never show (20_memory.md R88; 70_reset_and_hazards.md R261): every
operation takes two states that differ in nothing else to two such states again. -/

namespace Sys2Proof.Machine

theorem SameVisible.exists_bits {s t : State} (h : SameVisible s t) : ∃ m, t = { s with bits := m } :=
  ⟨t.bits, h.others⟩

/-- What a host can see of a state: the last answer, `irq` and the registers. None of them reads the bit array. -/
theorem SameVisible.outputs {s t : State} (h : SameVisible s t) :
    t.answer = s.answer ∧ t.irq = s.irq ∧ ∀ r : Reg, t.readReg r = s.readReg r := by
  obtain ⟨m, rfl⟩ := h.exists_bits
  exact ⟨rfl, rfl, fun r => by cases r <;> rfl⟩

theorem SameVisible.answered {s t : State} (h : SameVisible s t) (a : Answer) :
    SameVisible (s.answered a) (t.answered a) :=
  ⟨congrArg (State.answered · a) h.others, h.filter⟩

theorem SameVisible.complete {s t : State} (h : SameVisible s t) (e : ErrorCode) :
    SameVisible (s.complete e) (t.complete e) :=
  ⟨congrArg (State.complete · e) h.others, fun j hj => h.filter j hj⟩

theorem SameVisible.unlessBusy {s t u v : State} (h : SameVisible s t) (hset : SameVisible u v) :
    SameVisible (s.unlessBusy u) (t.unlessBusy v) := by
  obtain ⟨m, rfl⟩ := h.exists_bits
  cases hb : s.busy with
  | true =>
    rw [State.unlessBusy_of_busy u hb, State.unlessBusy_of_busy (s := { s with bits := m }) v hb]
    exact ⟨rfl, h.filter⟩
  | false =>
    rw [State.unlessBusy_of_idle u hb, State.unlessBusy_of_idle (s := { s with bits := m }) v hb]
    exact hset

/-- INSERT's loop treats equal bytes equally: it ORs the same masks into both (41_filter.md R195). -/
theorem arrayByte_insertBits_congr {epoch size : Nat} {h1 h2 : Word} {m n : Memory} {j : Nat}
    (h : arrayByte epoch m j = arrayByte epoch n j) (k : Nat) :
    arrayByte epoch (insertBits epoch size h1 h2 m k) j = arrayByte epoch (insertBits epoch size h1 h2 n k) j := by
  induction k with
  | zero => exact h
  | succ k ih =>
    simp only [insertBits, setArrayBit, arrayByte_write]
    split
    · rename_i hslot
      rw [hslot, ih]
    · exact ih

section
variable {s : State} {m : Memory} (h : SameVisible s { s with bits := m })
include h

/-- The bit-array window shows the active filter and zeros (20_memory.md R87, R88). -/
theorem SameVisible.windowByte : { s with bits := m }.windowByte = s.windowByte := by
  funext j
  cases hj : s.inFilter j with
  | true => exact (if_pos hj).trans ((h.filter j hj).symm.trans (if_pos hj).symm)
  | false => exact (if_neg (Bool.eq_false_iff.1 hj)).trans (if_neg (Bool.eq_false_iff.1 hj)).symm

/-- The two agree on every bit that lies in a byte of the active filter (41_filter.md R172). -/
theorem SameVisible.arrayBit (hinit : s.inited = true) {p : Nat} (hp : p / 8 < s.size.toNat) :
    arrayBit s.epoch m p = arrayBit s.epoch s.bits p :=
  congrArg (testByte · (bitOffset p)) (h.filter (p / 8) ((State.inFilter_iff s _).2 ⟨hinit, hp⟩)).symm

theorem SameVisible.busRead (addr : Word) (n : Width) :
    SameVisible (busRead s addr n) (busRead { s with bits := m } addr n) := by
  cases hd : decodeAccess s.params addr n with
  | reg r =>
    obtain ⟨-, -, hregs⟩ := h.outputs
    rw [busRead_of_reg hd, busRead_of_reg (s := { s with bits := m }) hd, hregs]
    exact h.answered _
  | elem i =>
    rw [busRead_of_elem hd, busRead_of_elem (s := { s with bits := m }) hd]
    exact h.answered _
  | bits j =>
    cases hb : s.busy with
    | true =>
      rw [busRead_of_bits_busy hd hb, busRead_of_bits_busy (s := { s with bits := m }) hd hb]
      exact ⟨rfl, h.filter⟩
    | false =>
      rw [busRead_of_bits_idle hd hb, busRead_of_bits_idle (s := { s with bits := m }) hd hb, h.windowByte]
      exact h.answered _
  | busError =>
    rw [busRead_of_busError hd, busRead_of_busError (s := { s with bits := m }) hd]
    exact h.answered _

theorem SameVisible.writeReg (r : Reg) (w : Word) :
    SameVisible (s.writeReg r w) ({ s with bits := m }.writeReg r w) := by
  cases r with
  | cmd | cfgSize | cfgK | seed | elemLen => exact h.unlessBusy ⟨rfl, h.filter⟩
  | ctrl | status | id | size | k | hashOut | h1 | h2 | result | maxSize | maxElem => exact ⟨rfl, h.filter⟩

/-- A write to the bit-array window gives a byte of the active filter the same value in both (20_memory.md R87). -/
theorem SameVisible.writeBits (j : Nat) (v : Word) (n : Nat) :
    SameVisible { s with bits := writeBitsBytes s.inFilter s.bits j v n }
      { s with bits := writeBitsBytes s.inFilter m j v n } where
  others := rfl
  filter a ha := by
    refine (bitsByte_writeBitsBytes s j v n a).trans
      (.trans ?_ (bitsByte_writeBitsBytes { s with bits := m } j v n a).symm)
    exact congrArg (ite _ _) (h.filter a ha)

theorem SameVisible.busWrite (addr : Word) (n : Width) (v : Word) :
    SameVisible (busWrite s addr n v) (busWrite { s with bits := m } addr n v) := by
  cases hd : decodeAccess s.params addr n with
  | reg r =>
    rw [busWrite_of_reg hd, busWrite_of_reg (s := { s with bits := m }) hd]
    exact (h.writeReg r v).answered .done
  | elem i =>
    rw [busWrite_of_elem hd, busWrite_of_elem (s := { s with bits := m }) hd]
    have hset : SameVisible { s with elem := writeElemBytes s.elem i v n.bytes }
        { s with bits := m, elem := writeElemBytes s.elem i v n.bytes } := ⟨rfl, h.filter⟩
    exact (h.unlessBusy hset).answered .done
  | bits j =>
    rw [busWrite_of_bits hd, busWrite_of_bits (s := { s with bits := m }) hd]
    exact (h.unlessBusy (h.writeBits j v n.bytes)).answered .done
  | busError =>
    rw [busWrite_of_busError hd, busWrite_of_busError (s := { s with bits := m }) hd]
    exact h.answered .error

/-- `wait` reads STATUS alone, so in both states it goes on or in both it ends (30_encoding.md R131). -/
theorem SameVisible.hostStep (op : HostOp) : SameVisible (hostStep s op) (hostStep { s with bits := m } op) := by
  cases op with
  | access a =>
    have hmoved : SameVisible s.advanceScript { s.advanceScript with bits := m } := ⟨rfl, h.filter⟩
    cases a with
    | read addr n => exact hmoved.busRead addr n
    | write addr n v => exact hmoved.busWrite addr n v
  | wait =>
    cases hb : s.busy with
    | true =>
      rw [hostStep_wait_of_busy hb, hostStep_wait_of_busy (s := { s with bits := m }) hb]
      exact h.answered _
    | false =>
      rw [hostStep_wait_of_idle hb, hostStep_wait_of_idle (s := { s with bits := m }) hb]
      exact ⟨rfl, h.filter⟩

/-- A command that succeeds in one state succeeds in the other: INIT gives every byte of its filter the value 0,
DEINIT leaves no filter, INSERT and CONTAINS go byte by byte inside it (41_filter.md R174, R180, R185). -/
theorem SameVisible.exists_succeeds (hinv : s.Inv) {i : Instr} {u : State} (hs : Succeeds i s u) :
    ∃ v, Succeeds i { s with bits := m } v ∧ SameVisible u v := by
  cases hs with
  | init _ hgood =>
    refine ⟨_, .init _ hgood, rfl, fun j hj => ?_⟩
    have hlt : j < s.cfgSize.toNat := ((State.inFilter_iff _ j).1 hj).2
    exact ((arrayByte_clear ..).trans (if_pos hlt)).trans ((arrayByte_clear ..).trans (if_pos hlt)).symm
  | deinit => exact ⟨_, .deinit _, rfl, fun j hj => by cases hj⟩
  | hash _ hfits => exact ⟨_, .hash _ hfits, rfl, h.filter⟩
  | derive _ hfits => exact ⟨_, .derive _ hfits, rfl, h.filter⟩
  | insert _ hinit hfits =>
    exact ⟨_, .insert _ hinit hfits, rfl, fun j hj => arrayByte_insertBits_congr (h.filter j hj) _⟩
  | contains _ hinit hfits =>
    obtain ⟨hsize, -, -⟩ := hinv.filterOn hinit
    refine ⟨_, .contains _ hinit hfits, ?_, h.filter⟩
    have hsame : ∀ k, containsBits s.epoch s.size.toNat (digest1 s.element) (digest2 s.element) m k =
        containsBits s.epoch s.size.toNat (digest1 s.element) (digest2 s.element) s.bits k :=
      containsBits_congr hsize fun p hp => h.arrayBit hinit (by omega)
    exact congrArg (fun b => { s.setDigests with bits := m, member := b }) (hsame _)

/-- No check reads the bit array, so a command fails alike in both states (60_exceptions.md R238). -/
theorem SameVisible.exists_exec (hinv : s.Inv) {i : Instr} {s' : State} (hs : exec i s = .next s') :
    ∃ t', exec i { s with bits := m } = .next t' ∧ SameVisible s' t' := by
  rcases exec_cases i s with ⟨e, he, hexec⟩ | ⟨u, hwrites, hexec⟩
  · cases hexec.symm.trans hs
    have hfirst : SpecForms.FirstError (SpecForms.errorChecks i s) e := firstError_of_exec hexec
    exact ⟨_, exec_of_firstError (s := { s with bits := m }) hfirst he, h.complete e⟩
  · cases hexec.symm.trans hs
    obtain ⟨v, hv, huv⟩ := h.exists_succeeds hinv hwrites
    exact ⟨_, exec_of_succeeds hv, huv.complete .ok⟩

theorem SameVisible.exists_engineStep (hinv : s.Inv) {w : Word} {s' : State} (hs : engineStep w s = .next s') :
    ∃ t', engineStep w { s with bits := m } = .next t' ∧ SameVisible s' t' := by
  cases hdecode : decode w with
  | ok i =>
    rw [engineStep_of_decode hdecode] at hs ⊢
    exact h.exists_exec hinv hs
  | error e =>
    rw [engineStep, hdecode] at hs ⊢
    cases hs
    exact ⟨_, rfl, h.complete .illegalCmd⟩

/-- Who moves next does not depend on the bit array, and each move keeps the two alike (60_exceptions.md R247). -/
theorem SameVisible.exists_step (hinv : s.Inv) {s' : State} (hs : step s = .next s') :
    ∃ t', step { s with bits := m } = .next t' ∧ SameVisible s' t' := by
  have hmoved : SameVisible s.advanceSchedule { s.advanceSchedule with bits := m } := ⟨rfl, h.filter⟩
  have same_move : ∀ {move}, s.nextMove = move →
      step { s with bits := m } = perform { s.advanceSchedule with bits := m } move :=
    step_of_nextMove (s := { s with bits := m })
  rcases step_cases s with ⟨op, hmove, hstep⟩ | ⟨w, hmove, -, hstep⟩ | ⟨hmove, hstep⟩ | ⟨hmove, hstep⟩
  · cases hstep.symm.trans hs
    exact ⟨_, same_move hmove, hmoved.hostStep op⟩
  · obtain ⟨t', ht, hsame⟩ := hmoved.exists_engineStep hinv.advanceSchedule (hstep.symm.trans hs)
    exact ⟨t', (same_move hmove).trans ht, hsame⟩
  · cases hstep.symm.trans hs
    exact ⟨_, same_move hmove, rfl, fun _ _ => rfl⟩
  · cases hstep.symm.trans hs
    exact ⟨_, same_move hmove, hmoved⟩

end

/-- Settles O55: a step keeps the two states alike, and states that are alike show the same. -/
theorem hiddenBitArrayBytesNeverShow : Obligations.HiddenBitArrayBytesNeverShow := by
  intro s t s' hs _ hsame hstep
  obtain ⟨m, rfl⟩ := hsame.exists_bits
  obtain ⟨t', ht, hsame'⟩ := hsame.exists_step hs hstep
  exact ⟨t', ht, hsame', hsame'.outputs⟩

end Sys2Proof.Machine
end

section
/-! What reset leaves (70_reset_and_hazards.md R260 to R263). -/

namespace Sys2Proof.Machine

/-- An unwritten RAM array has no value anywhere (70_reset_and_hazards.md R261). -/
@[simp] theorem Memory.get?_unwritten (a : Nat) : Memory.unwritten.get? a = none := by
  simp [Memory.get?, Memory.unwritten, lookupCell, Memory.unlisted]

section
variable (p : Params) (script : List HostOp) (schedule : List Mover) (epoch draws : Nat)

theorem State.afterReset_bitsByte (j : Nat) :
    (State.afterReset p script schedule epoch draws).bitsByte j = Config.bitsByte epoch j :=
  congrArg (Option.getD · _) (Memory.get?_unwritten j)

theorem State.afterReset_elemByte (i : Nat) :
    (State.afterReset p script schedule epoch draws).elemByte i = Config.elemByte epoch i :=
  congrArg (Option.getD · _) (Memory.get?_unwritten i)

/-- After reset every field of STATUS is 0, whatever the parameters and the inputs (70_reset_and_hazards.md R260). -/
theorem State.afterReset_statusWord : (State.afterReset p script schedule epoch draws).statusWord = 0 :=
  show State.reset.statusWord = 0 by decide

end

/-- Settles O50: the registers by definition, the RAMs since nothing is listed, and a legal capacity fits in a word. -/
theorem resetValues : Obligations.ResetValues := by
  refine ⟨fun p script schedule epoch draws hlegal => ?_, rfl⟩
  obtain ⟨⟨-, hbits⟩, -, helem⟩ := hlegal
  refine ⟨_, rfl, rfl, rfl, rfl, rfl, rfl, rfl, rfl, rfl, rfl, rfl, rfl, rfl, rfl, rfl, rfl, rfl, rfl, rfl, rfl,
    State.afterReset_bitsByte p script schedule epoch draws, State.afterReset_elemByte p script schedule epoch draws,
    rfl, ?_, ?_⟩
  · exact Nat.mod_eq_of_lt (show p.maxBitsetBytes < 2 ^ 32 by omega)
  · exact Nat.mod_eq_of_lt (show p.maxElemBytes < 2 ^ 32 by omega)

/-- Settles O51: a scheduled reset is the next move in every state, and it looks only at what it keeps. -/
theorem resetStep : Obligations.ResetStep := by
  intro s rest hschedule
  have hmove : s.nextMove = .reset := by rw [State.nextMove, hschedule]
  have hstep : step s = .next (State.afterReset s.params s.script rest (s.epoch + 1) s.draws) := by
    rw [step_of_nextMove hmove, perform, advanceSchedule_eq (congrArg List.tail hschedule)]
    rfl
  exact ⟨_, hstep, rfl, rfl, rfl, rfl⟩

/-- From an idle phase the engine has no move (60_exceptions.md R247 (b)). -/
theorem nextMove_ne_engine_of_idle {s : State} (hphase : s.phase = .idle) (w : Word) : s.nextMove ≠ .engine w :=
  fun hmove => by cases hphase.symm.trans (phase_of_nextMove_engine hmove)

/-- From an idle phase a host step ends idle, or it is a CMD write (70_reset_and_hazards.md R263). -/
theorem hostStep_of_idle {s : State} (hphase : s.phase = .idle) (op : HostOp) :
    (hostStep s op).phase = .idle ∨ ∃ addr w, op = .access (.write addr .word w) ∧ addr.toNat = 0x00C := by
  by_cases hw : ∃ addr n v, op = .access (.write addr n v)
  · obtain ⟨addr, n, v, rfl⟩ := hw
    obtain ⟨-, hwrite, -⟩ := busWrite_flags s.advanceScript addr n v
    rcases hwrite with hkept | ⟨rfl, haddr, -, -⟩
    · exact .inl (hkept.trans hphase)
    · exact .inr ⟨addr, v, rfl, haddr⟩
  · obtain ⟨-, hkept, -⟩ := hostStep_flags s op fun addr n v heq => hw ⟨addr, n, v, heq⟩
    exact .inl (hkept.trans hphase)

/-- Settles O52: after reset STATUS.INIT is 0, HASH and DERIVE check the length alone, and by what a step can do only a
CMD write leaves an idle phase. -/
theorem afterReset : Obligations.AfterReset := by
  refine ⟨fun p script schedule epoch draws _ => ?_, fun s t hphase hstep => ⟨nextMove_ne_engine_of_idle hphase, ?_⟩⟩
  · refine ⟨_, rfl, rfl, State.afterReset_statusWord .., ⟨_, execInsert_of_uninit rfl, rfl⟩,
      ⟨_, execContains_of_uninit rfl, rfl⟩, fun elem n hlen => ⟨_, rfl, ?_⟩⟩
    have hfits := (State.elemTooLong_false_iff
      { State.afterReset p script schedule epoch draws with elem := elem, elemLen := n }).2 hlen
    exact ⟨⟨_, execHash_of_fits hfits, rfl, rfl⟩, ⟨_, execDerive_of_fits hfits, rfl, rfl⟩⟩
  · cases stepEffect_of_step hstep with
    | host op hmove =>
      refine (hostStep_of_idle (s := s.advanceSchedule) hphase op).imp_right ?_
      rintro ⟨addr, w, rfl, haddr⟩
      exact ⟨addr, w, hmove, haddr⟩
    | failed | succeeded | reset => exact .inl rfl
    | idle => exact .inl hphase

end Sys2Proof.Machine
end
